-- ==== Sys2Proof/Word.lean ====
section
/-! DEFINITION. The word types of the block (R7): 32-bit registers and pixels, 16-bit packed colours,
8-bit bytes and channels. -/

namespace Sys2Proof

/-- A register, a command word or a pixel word: XLEN = 32 bits (R7). -/
abbrev Word := BitVec 32

/-- One byte of `MEM`, or one channel of a pixel (R7, R50). -/
abbrev Byte := BitVec 8

/-- A packed colour, 5/5/5/1 or 5/5/5 (R54, R100). -/
abbrev Packed := BitVec 16

end Sys2Proof
end

