-- ==== Sys2Proof/Syntax.lean ====
section
/-! DEFINITION. The commands of the block: one constructor of `Instr` per row of spec/opcode_table.json,
and the two ways a command word can be no command (R70 to R79). -/

namespace Sys2Proof

/-- The ESIZE field of PAD and CROP (R73), all four codes of its two bits. `reserved` is code 3, which
no well-formed command has. -/
inductive ESize where
  | e1
  | e2
  | e4
  | reserved
  deriving DecidableEq, Repr

/-- The FMT field of HDR (R74), all four codes of its two bits. `reserved` is code 3, which no
well-formed command has. -/
inductive Fmt where
  | gen
  | nbf
  | npf
  | reserved
  deriving DecidableEq, Repr

/-- A command (R72). Commands have no immediates: every operand is a register, and the only fields are
ESIZE and FMT (R77). -/
inductive Instr where
  | nop
  | unpk5551
  | unpk555
  | pack5551
  | pack555
  | swid
  | conv5551
  | conv555
  | pad (e : ESize)
  | crop (e : ESize)
  | pal8
  | pal4
  | hdr (f : Fmt)
  deriving DecidableEq, Repr

/-- Why a command word is no command (R75, R76, R78), in the order the decoder looks. -/
inductive Rejection where
  /-- RSV, bits 31:12, is not 0 (R75): `Illegal`. -/
  | reservedBits
  /-- OP is not in the opcode map (R76): `Illegal`. -/
  | reservedOpcode
  /-- ESIZE or FMT is not 0 in a command that does not use it (R75): `Illegal`. -/
  | unusedField
  /-- PAD or CROP with ESIZE = 3 (R73): `Illegal`. -/
  | reservedSize
  /-- HDR with FMT = 3 (R74): `Unsupported`. -/
  | unsupportedFormat
  deriving DecidableEq, Repr

/-- What the decoder answers (R78): a command, or a rejection by name. -/
inductive Decoded where
  | command (i : Instr)
  | rejected (r : Rejection)
  deriving DecidableEq, Repr

end Sys2Proof
end

