-- ==== Sys2Proof/WellFormed.lean ====
section
/-! DEFINITION. Which terms of `Instr` are commands of the hardware: those whose ESIZE or FMT is not the
reserved code 3 (R73, R74). The 19 well-formed terms are the 19 legal words of R79. -/

namespace Sys2Proof

/-- R73: ESIZE = 3 is illegal. -/
def ESize.legal : ESize → Bool
  | .e1 => true
  | .e2 => true
  | .e4 => true
  | .reserved => false

/-- R74: FMT = 3 is not one of the formats. -/
def Fmt.legal : Fmt → Bool
  | .gen => true
  | .nbf => true
  | .npf => true
  | .reserved => false

/-- A well-formed command: one of the 19 assembler forms of R79. -/
def Instr.wellFormed : Instr → Bool
  | .nop => true
  | .unpk5551 => true
  | .unpk555 => true
  | .pack5551 => true
  | .pack555 => true
  | .swid => true
  | .conv5551 => true
  | .conv555 => true
  | .pad e => e.legal
  | .crop e => e.legal
  | .pal8 => true
  | .pal4 => true
  | .hdr f => f.legal

end Sys2Proof
end

