-- ==== Sys2Proof/Decode.lean ====
section
/-! DEFINITION. The decoder of R78, total over all 2^32 command words and rejecting by name, and after it
the encoder of R79. -/

namespace Sys2Proof

/-- OP, bits 7:0 (R71). -/
def opField (w : Word) : BitVec 8 := w.extractLsb' 0 8

/-- ESIZE, bits 9:8 (R71). -/
def esizeField (w : Word) : BitVec 2 := w.extractLsb' 8 2

/-- FMT, bits 11:10 (R71). -/
def fmtField (w : Word) : BitVec 2 := w.extractLsb' 10 2

/-- RSV, bits 31:12 (R71). -/
def rsvField (w : Word) : BitVec 20 := w.extractLsb' 12 20

/-- The ESIZE codes (R73): 0 is 1 byte, 1 is 2 bytes, 2 is 4 bytes. -/
def ESize.ofCode (c : BitVec 2) : ESize :=
  match c with
  | 0#2 => .e1
  | 1#2 => .e2
  | 2#2 => .e4
  | _ => .reserved

/-- The FMT codes (R74): 0 is generic, 1 is NBF, 2 is NPF. -/
def Fmt.ofCode (c : BitVec 2) : Fmt :=
  match c with
  | 0#2 => .gen
  | 1#2 => .nbf
  | 2#2 => .npf
  | _ => .reserved

/-- A command that uses neither field: both must be 0 (R75). -/
def decodePlain (w : Word) (i : Instr) : Decoded :=
  if esizeField w = 0 ∧ fmtField w = 0 then .command i else .rejected .unusedField

/-- PAD or CROP: FMT must be 0 and ESIZE not 3 (R73, R75, R78). -/
def decodeSized (w : Word) (mk : ESize → Instr) : Decoded :=
  if fmtField w = 0 then
    match ESize.ofCode (esizeField w) with
    | .reserved => .rejected .reservedSize
    | e => .command (mk e)
  else .rejected .unusedField

/-- HDR: ESIZE must be 0, looked at before FMT = 3 (R74, R75, R78). -/
def decodeHeader (w : Word) : Decoded :=
  if esizeField w = 0 then
    match Fmt.ofCode (fmtField w) with
    | .reserved => .rejected .unsupportedFormat
    | f => .command (.hdr f)
  else .rejected .unusedField

/-- The opcode map (R72); every OP not listed is reserved (R76). -/
def decodeOp (w : Word) : Decoded :=
  match opField w with
  | 0x00#8 => decodePlain w .nop
  | 0x01#8 => decodePlain w .unpk5551
  | 0x02#8 => decodePlain w .unpk555
  | 0x03#8 => decodePlain w .pack5551
  | 0x04#8 => decodePlain w .pack555
  | 0x05#8 => decodePlain w .swid
  | 0x08#8 => decodePlain w .conv5551
  | 0x09#8 => decodePlain w .conv555
  | 0x0C#8 => decodeSized w .pad
  | 0x0D#8 => decodeSized w .crop
  | 0x10#8 => decodePlain w .pal8
  | 0x11#8 => decodePlain w .pal4
  | 0x18#8 => decodeHeader w
  | _ => .rejected .reservedOpcode

/-- The decode function of R78. -/
def decode (w : Word) : Decoded :=
  if rsvField w = 0 then decodeOp w else .rejected .reservedBits

/-- The instruction the decoder reads from a word numbered as spec/opcode_table.json numbers its bits;
bits above `nbits` are 0, and a command word never has more than 32 bits (R70). -/
def decodeTableWord (nbits w : Nat) : Option Instr :=
  if nbits ≤ 32 then
    match decode (BitVec.ofNat 32 (w % 2 ^ nbits)) with
    | .command i => some i
    | .rejected _ => none
  else none

/-- The code of each ESIZE (R73). -/
def ESize.code : ESize → BitVec 2
  | .e1 => 0
  | .e2 => 1
  | .e4 => 2
  | .reserved => 3

/-- The code of each FMT (R74). -/
def Fmt.code : Fmt → BitVec 2
  | .gen => 0
  | .nbf => 1
  | .npf => 2
  | .reserved => 3

/-- A command word from its fields, RSV = 0: `rrrrrrrrrrrrrrrrrrrr ff ee oooooooo` (R71). -/
def commandWord (op : BitVec 8) (es fm : BitVec 2) : Word := 0#20 ++ fm ++ es ++ op

/-- The command word of each command (R72, R79). -/
def encode : Instr → Word
  | .nop => commandWord 0x00 0 0
  | .unpk5551 => commandWord 0x01 0 0
  | .unpk555 => commandWord 0x02 0 0
  | .pack5551 => commandWord 0x03 0 0
  | .pack555 => commandWord 0x04 0 0
  | .swid => commandWord 0x05 0 0
  | .conv5551 => commandWord 0x08 0 0
  | .conv555 => commandWord 0x09 0 0
  | .pad e => commandWord 0x0C e.code 0
  | .crop e => commandWord 0x0D e.code 0
  | .pal8 => commandWord 0x10 0 0
  | .pal4 => commandWord 0x11 0 0
  | .hdr f => commandWord 0x18 0 f.code

end Sys2Proof
end

