-- ==== Sys2Proof/Config.lean ====
section
/-! DEFINITION. The parameters of the hardware (R7). MEM_SIZE, the one the spec leaves OPEN, is no
constant here: it is the field `memExp` of State, so that a statement about every state is a statement
about every legal MEM_SIZE (log 1). The spec leaves no command result open, so there is no free value. -/

namespace Sys2Proof.Config

/-- `MAX_SECTIONS` (R7): the largest section count `HDR` accepts and the size of SEC_LEN and SEC_ADDR. -/
abbrev maxSections : Nat := 16

/-- Bytes of the register window (R7, R20). -/
abbrev windowBytes : Nat := 0x100

/-- The exponent of the least MEM_SIZE, 2^12 (R7). -/
abbrev memExpMin : Nat := 12

/-- How many legal sizes MEM_SIZE has: 2^12, 2^13, …, 2^31 (R7). -/
abbrev memSizes : Nat := 20

/-- DESIGN CHOICE (log 1): the size `State.reset` carries, 2^(12+8) = 2^20, the one the spec's own test
vectors use (R7). No statement rests on it. -/
abbrev resetMemExp : Fin memSizes := 8

end Sys2Proof.Config
end

