-- ==== Sys2Proof/Machine/State.lean ====
section
/-! DEFINITION. Everything the spec gives the machine, as plain data (10_state.md), with the reasons a
step can stop, the turns of the agents, and the state after power-on reset. -/

namespace Sys2Proof.Machine

/-- `MEM` (R42, R50): the written bytes as (address, byte) pairs, addresses strictly rising and below
MEM_SIZE. A byte that is not listed is unwritten and has no value (R68). -/
abbrev Memory := List Host.Cell

/-- The hidden command phase (R39). -/
inductive Phase where
  | idle
  | pending
  deriving DecidableEq, Repr

/-- The error codes a command can raise (R201). -/
inductive ErrorCode where
  | truncatedBuffer
  | malformedHeader
  | invalidDimensions
  | unsupportedFormat
  | illegalCommand
  | addressRange
  | overlap
  deriving DecidableEq, Repr

/-- The registers of the window, by name (R21). -/
inductive Reg where
  | ctrl
  | status
  | cmd
  | srcAddr
  | srcLen
  | dstAddr
  | auxAddr
  | auxLen
  | width
  | height
  | din
  | dout
  | swidth
  | outLen
  | secCount
  | secLen (i : Fin Config.maxSections)
  | secAddr (i : Fin Config.maxSections)
  deriving DecidableEq, Repr

/-- One access of the host on its bus: to the register window by byte offset (R20), or to `MEM` by
address (R60). `width` is the access width in bytes; a write carries `width` bytes of `v`. -/
inductive HostAccess where
  | readReg (off width : Nat)
  | writeReg (off width : Nat) (v : Word)
  | readMem (addr width : Nat)
  | writeMem (addr width : Nat) (v : Word)
  deriving DecidableEq, Repr

/-- Whose move the next step is (log 2). -/
inductive Turn where
  /-- The host makes an access. -/
  | host (a : HostAccess)
  /-- The reset input is asserted (R230). -/
  | reset
  /-- Power is removed and comes back (R68, R232). -/
  | power
  /-- The block moves: it runs the pending command, or does nothing while idle (R191, R213). -/
  | block
  deriving DecidableEq, Repr

/-- Why the machine stops (R214, "Fault"). Each errs toward unprovable (safe). -/
inductive Fault where
  /-- A command or a host read reads a `MEM` byte nobody has written (R40, R68). Raised by the buffer
  commands, HDR and host reads of `MEM`; safe. -/
  | unwrittenByte
  /-- A host access to a `MEM` address that does not exist (R50, log 7). Raised by host accesses; safe. -/
  | outsideMem
  /-- A host register access beyond the 0x100 bytes of the window (R20, log 8). Raised by host accesses;
  safe. -/
  | outsideWindow
  deriving DecidableEq, Repr

/-- What the model gives no meaning (R214, "Refused"). Each errs toward unprovable (safe). -/
inductive Refusal where
  /-- An instruction whose meaning is not written: raised by `exec`'s arms only; safe. -/
  | notModelled (mnemonic : String)
  /-- A host access other than a STATUS read while BUSY = 1 (R234). Raised by host accesses; safe. -/
  | hostBusy
  /-- A host register access that is not an aligned 32-bit one (R20, R234). Raised by host accesses;
  safe. -/
  | registerAccessForm
  /-- A host `MEM` access of another width than 1, 2 or 4 bytes (R60, log 9). Raised by host accesses;
  safe. -/
  | memAccessWidth
  deriving DecidableEq, Repr

/-- The state of the block, of its marks and of the model's own bookkeeping. -/
structure State where
  /-- CTRL's two implemented bits: MAGIC_CHECK is bit 0, STRICT_LEN bit 1 (R25, log 12). -/
  ctrl : BitVec 2
  /-- The command phase (R39), seen by the host as STATUS.BUSY (R26, log 11). -/
  phase : Phase
  /-- STATUS.DONE (R26). -/
  done : Bool
  /-- STATUS.ERR (R26). -/
  err : Bool
  /-- STATUS.ERRCODE (R26). -/
  errCode : BitVec 4
  /-- CMD (R27). -/
  cmd : Word
  /-- SRC_ADDR (R28). -/
  srcAddr : Word
  /-- SRC_LEN (R28). -/
  srcLen : Word
  /-- DST_ADDR (R29). -/
  dstAddr : Word
  /-- AUX_ADDR (R30). -/
  auxAddr : Word
  /-- AUX_LEN (R30). -/
  auxLen : Word
  /-- WIDTH (R31). -/
  width : Word
  /-- HEIGHT (R31). -/
  height : Word
  /-- DIN (R32). -/
  din : Word
  /-- DOUT (R33). -/
  dout : Word
  /-- SWIDTH (R34). -/
  swidth : Word
  /-- OUT_LEN (R35). -/
  outLen : Word
  /-- SEC_COUNT (R36). -/
  secCount : Word
  /-- SEC_LEN[0..15] (R37). -/
  secLen : Vector Word Config.maxSections
  /-- SEC_ADDR[0..15] (R38). -/
  secAddr : Vector Word Config.maxSections
  /-- `MEM` (R42). -/
  mem : Memory
  /-- The model mark `refused` (R40, log 6). -/
  refusedMark : Bool
  /-- The model mark `fault` (R40, log 6). -/
  faultMark : Bool
  /-- The model's own: MEM_SIZE is 2^(12 + memExp), the parameter the spec leaves OPEN (R7, log 1). -/
  memExp : Fin Config.memSizes
  /-- The model's own: the turns still to be taken, first one next; past its end the block moves
  (log 2). -/
  agenda : List Turn
  /-- The model's own: the word the last host read returned (log 4). -/
  reply : Option Word
  deriving DecidableEq, Repr

/-- The state after power-on and reset (R41, R231, R68): CTRL = 3, every other register 0, idle, both
marks clear, every `MEM` byte unwritten. -/
def State.reset : State where
  ctrl := 3
  phase := .idle
  done := false
  err := false
  errCode := 0
  cmd := 0
  srcAddr := 0
  srcLen := 0
  dstAddr := 0
  auxAddr := 0
  auxLen := 0
  width := 0
  height := 0
  din := 0
  dout := 0
  swidth := 0
  outLen := 0
  secCount := 0
  secLen := Vector.replicate Config.maxSections 0
  secAddr := Vector.replicate Config.maxSections 0
  mem := []
  refusedMark := false
  faultMark := false
  memExp := Config.resetMemExp
  agenda := []
  reply := none

end Sys2Proof.Machine
end

