-- ==== Sys2Proof/Machine/Flags.lean ====
section
/-! DEFINITION. STATUS and CTRL: the words the host reads (R25, R26), the error codes (R201), and the
three ways STATUS is written, issue (R191), success (R194) and a raise (R203). -/

namespace Sys2Proof.Machine

/-- The number of each error in STATUS.ERRCODE (R201). -/
def ErrorCode.code : ErrorCode → BitVec 4
  | .truncatedBuffer => 1
  | .malformedHeader => 2
  | .invalidDimensions => 3
  | .unsupportedFormat => 4
  | .illegalCommand => 5
  | .addressRange => 6
  | .overlap => 7

/-- The error a rejected command word raises when it runs (R78, R204). -/
def rejectionError : Rejection → ErrorCode
  | .reservedBits => .illegalCommand
  | .reservedOpcode => .illegalCommand
  | .unusedField => .illegalCommand
  | .reservedSize => .illegalCommand
  | .unsupportedFormat => .unsupportedFormat

/-- STATUS.BUSY: 1 exactly while a command is pending (R26, R39). -/
def State.busy (s : State) : Bool :=
  match s.phase with
  | .idle => false
  | .pending => true

/-- The STATUS word (R26): ERRCODE in 11:8, ERR bit 2, DONE bit 1, BUSY bit 0, all other bits 0. -/
def State.statusWord (s : State) : Word :=
  0#20 ++ s.errCode ++ 0#5 ++ BitVec.ofBool s.err ++ BitVec.ofBool s.done ++ BitVec.ofBool s.busy

/-- The CTRL word: bits 31:2 read as 0 (R25). -/
def State.ctrlWord (s : State) : Word := s.ctrl.setWidth 32

/-- CTRL.MAGIC_CHECK (R25). -/
def State.magicCheck (s : State) : Bool := s.ctrl.getLsbD 0

/-- CTRL.STRICT_LEN (R25). -/
def State.strictLen (s : State) : Bool := s.ctrl.getLsbD 1

/-- R191, issue: the host's write of `w` to CMD. -/
def State.issue (s : State) (w : Word) : State :=
  { s with cmd := w, phase := .pending, done := false, err := false, errCode := 0 }

/-- R194, success status: STATUS = 0x00000002, and the block is idle. -/
def State.succeed (s : State) : State :=
  { s with phase := .idle, done := true, err := false, errCode := 0 }

/-- R203, a raise of error `e`: only STATUS and the phase change. -/
def State.fail (s : State) (e : ErrorCode) : State :=
  { s with phase := .idle, done := true, err := true, errCode := e.code }

end Sys2Proof.Machine
end

