-- ==== Sys2Proof/Machine/Ops.lean ====
section
/-! DEFINITION. The primitives of R9 and R10 over `MEM` and naturals, and the shared life of a command:
check, read, commit or raise (R192, R203, R214). -/

namespace Sys2Proof.Machine

/-! ### Size arithmetic, in naturals (R8, R12) -/

/-- `pow2ceil` (R10, R130, R131): 0 at 0, else the least power of two that is at least `n`. -/
def pow2ceil (n : Nat) : Nat :=
  if n = 0 then 0 else if 2 ^ n.log2 = n then n else 2 ^ (n.log2 + 1)

/-- MEM_SIZE (R7, R50). -/
def State.memSize (s : State) : Nat := 2 ^ (Config.memExpMin + s.memExp.val)

/-- `InMem(a, n)` (R9). -/
def State.inMem (s : State) (a n : Nat) : Bool := decide (n = 0 ∨ a + n ≤ s.memSize)

/-- `Disjoint(a, n, b, m)` (R9). -/
def disjoint (a n b m : Nat) : Bool := decide (n = 0 ∨ m = 0 ∨ a + n ≤ b ∨ b + m ≤ a)

/-! ### Bytes and little-endian naturals (R9, R52) -/

/-- The natural whose little-endian bytes are `bs`: the first is least significant (R9). -/
def leNat : List Byte → Nat
  | [] => 0
  | b :: bs => b.toNat + 256 * leNat bs

/-- The `n` low bytes of `v`, least significant first (R9, R52). -/
def leBytes : Nat → Nat → List Byte
  | 0, _ => []
  | n + 1, v => BitVec.ofNat 8 v :: leBytes n (v / 256)

/-! ### `MEM` (R42, R50) -/

/-- The canonical form: addresses strictly rising, all below `size`. An unlisted byte has no value, so no
entry can equal it. -/
def Memory.wf (size : Nat) (m : Memory) : Bool :=
  decide (m.Pairwise (fun x y => x.1 < y.1)) && m.all (fun x => decide (x.1 < size))

/-- `MEM[a]`: its value, or none where nobody has written it (R68). -/
def Memory.read : Memory → Nat → Option Byte
  | [], _ => none
  | (b, v) :: m, a => if a = b then some v else Memory.read m a

/-- The `n` bytes from `a` up, or none where one of them is unwritten (R68). -/
def Memory.readBytes (m : Memory) : Nat → Nat → Option (List Byte)
  | _, 0 => some []
  | a, n + 1 =>
    match m.read a with
    | none => none
    | some b => (m.readBytes (a + 1) n).map (b :: ·)

/-- `MemRead(a, n)` (R9): one little-endian natural. -/
def Memory.readNat (m : Memory) (a n : Nat) : Option Nat := (m.readBytes a n).map leNat

/-- The cells of `bs` laid from address `a` up. -/
def cellsAt : Nat → List Byte → Memory
  | _, [] => []
  | a, b :: bs => (a, b) :: cellsAt (a + 1) bs

/-- `bs` written from address `a` up; every other byte stays (R9). -/
def Memory.writeBytes (m : Memory) (a : Nat) (bs : List Byte) : Memory :=
  m.filter (fun x => decide (x.1 < a)) ++ cellsAt a bs
    ++ m.filter (fun x => decide (a + bs.length ≤ x.1))

/-- `MemWrite(a, n, v)` (R9). -/
def Memory.writeNat (m : Memory) (a n v : Nat) : Memory := m.writeBytes a (leBytes n v)

/-! ### The loop of a buffer command (R62) -/

/-- `f k ++ f (k+1) ++ … ++ f (k+n-1)`, or none where one of them is none. -/
def gatherFrom (f : Nat → Option (List Byte)) : Nat → Nat → Option (List Byte)
  | _, 0 => some []
  | k, n + 1 =>
    match f k with
    | none => none
    | some x => (gatherFrom f (k + 1) n).map (x ++ ·)

/-- The output of the loop `for p in 0 .. n-1` whose element `p` is `f p`, every read made from `MEM` as
it stood when the command began (R62); none where a read meets an unwritten byte. -/
def gather (n : Nat) (f : Nat → Option (List Byte)) : Option (List Byte) := gatherFrom f 0 n

/-! ### The life of a command (R191, R192, R203, R214) -/

/-- How a command's rule ends (R192, R214): it is done with the registers and `MEM` it leaves, or has
raised an error, or has read an unwritten byte. -/
inductive Verdict where
  | done (t : State)
  | raised (e : ErrorCode)
  | stopped (r : Fault)
  deriving DecidableEq, Repr

/-- The rest of the rule, over a value read from `MEM`; a read of an unwritten byte stops it (R68). -/
def load {α : Type} (v : Option α) (rest : α → Verdict) : Verdict :=
  match v with
  | some x => rest x
  | none => .stopped .unwrittenByte

/-- The one raise (R203): the model's "taking an exception". It writes STATUS, leaves every other register
and every byte, and the machine goes on. There is no saved state, vector or return (R200, R206). -/
def State.raise (s : State) (e : ErrorCode) : Host.Outcome State Fault Refusal := .next (s.fail e)

/-- All or nothing (R192): a rule that is done commits everything with the success status (R194), one that
raises changes only STATUS (R203), one that read an unwritten byte faults (R214). -/
def finish (s : State) (v : Verdict) : Host.Outcome State Fault Refusal :=
  match v with
  | .done t => .next t.succeed
  | .raised e => s.raise e
  | .stopped r => .fault r

/-- What a buffer command commits: its output bytes at DST_ADDR and `out`, their count, in OUT_LEN (R35). -/
def State.commitOutput (s : State) (out : Nat) (bytes : List Byte) : State :=
  { s with mem := s.mem.writeBytes s.dstAddr.toNat bytes, outLen := BitVec.ofNat 32 out }

end Sys2Proof.Machine
end

