-- ==== Sys2Proof/Machine/Operands.lean ====
section
/-! DEFINITION. The operand registers as the commands use them (R10, R23, R28 to R32), and the register
window as the host sees it (R20 to R22, R25, R27). -/

namespace Sys2Proof.Machine

/-! ### Operands of the buffer commands -/

/-- `W = x[WIDTH]` as a natural (R31). -/
def State.w (s : State) : Nat := s.width.toNat

/-- `H = x[HEIGHT]` as a natural (R31). -/
def State.h (s : State) : Nat := s.height.toNat

/-- `SW = pow2ceil(x[WIDTH])` (R10). -/
def State.sw (s : State) : Nat := pow2ceil s.w

/-- `N = SW * x[HEIGHT]`, the count of storage elements (R10). -/
def State.elems (s : State) : Nat := s.sw * s.h

/-- `x[SRC_ADDR]` as a natural (R28). -/
def State.src (s : State) : Nat := s.srcAddr.toNat

/-- `x[DST_ADDR]` as a natural (R29). -/
def State.dst (s : State) : Nat := s.dstAddr.toNat

/-- `x[AUX_ADDR]` as a natural (R30). -/
def State.aux (s : State) : Nat := s.auxAddr.toNat

/-- The largest legal WIDTH, 2^31 (R132). -/
def maxWidth : Nat := 2 ^ 31

/-- The declared source range lies in `MEM` (R28, R59). -/
def State.srcInMem (s : State) : Bool := s.inMem s.src s.srcLen.toNat

/-- The element size E in bytes (R73). ESIZE = 3 has none; PAD and CROP raise before they use it. -/
def elemBytes : ESize → Nat
  | .e1 => 1
  | .e2 => 2
  | .e4 => 4
  | .reserved => 0

/-- The rule CONV, PAD and CROP share (R110, R134, R135): they read `need` bytes of the source buffer and
write `out` bytes, and the loop runs over `n` elements, element `p` being `elem p`. -/
def copyRule (s : State) (need n out : Nat) (elem : Nat → Option (List Byte)) : Verdict :=
  if maxWidth < s.w then .raised .invalidDimensions
  else if !s.srcInMem then .raised .addressRange
  else if s.srcLen.toNat < need then .raised .truncatedBuffer
  else if !s.inMem s.dst out then .raised .addressRange
  else if !disjoint s.dst out s.src need then .raised .overlap
  else load (gather n elem) fun bytes => .done (s.commitOutput out bytes)

/-! ### The register window -/

/-- The register at a byte offset of the window; none at a reserved offset (R21). -/
def registerAt (off : Nat) : Option Reg :=
  match off with
  | 0x000 => some .ctrl
  | 0x004 => some .status
  | 0x008 => some .cmd
  | 0x00C => some .srcAddr
  | 0x010 => some .srcLen
  | 0x014 => some .dstAddr
  | 0x018 => some .auxAddr
  | 0x01C => some .auxLen
  | 0x020 => some .width
  | 0x024 => some .height
  | 0x028 => some .din
  | 0x02C => some .dout
  | 0x030 => some .swidth
  | 0x034 => some .outLen
  | 0x038 => some .secCount
  | _ =>
    if h : 0x040 ≤ off ∧ off < 0x080 then
      some (.secLen ⟨(off - 0x040) / 4, by simp only [Config.maxSections]; omega⟩)
    else if h : 0x080 ≤ off ∧ off < 0x0C0 then
      some (.secAddr ⟨(off - 0x080) / 4, by simp only [Config.maxSections]; omega⟩)
    else none

/-- The byte offset of each register (R21). -/
def Reg.offset : Reg → Nat
  | .ctrl => 0x000
  | .status => 0x004
  | .cmd => 0x008
  | .srcAddr => 0x00C
  | .srcLen => 0x010
  | .dstAddr => 0x014
  | .auxAddr => 0x018
  | .auxLen => 0x01C
  | .width => 0x020
  | .height => 0x024
  | .din => 0x028
  | .dout => 0x02C
  | .swidth => 0x030
  | .outLen => 0x034
  | .secCount => 0x038
  | .secLen i => 0x040 + 4 * i.val
  | .secAddr i => 0x080 + 4 * i.val

/-- `x[name]` (R9, R22): the current value of a register. -/
def State.get (s : State) : Reg → Word
  | .ctrl => s.ctrlWord
  | .status => s.statusWord
  | .cmd => s.cmd
  | .srcAddr => s.srcAddr
  | .srcLen => s.srcLen
  | .dstAddr => s.dstAddr
  | .auxAddr => s.auxAddr
  | .auxLen => s.auxLen
  | .width => s.width
  | .height => s.height
  | .din => s.din
  | .dout => s.dout
  | .swidth => s.swidth
  | .outLen => s.outLen
  | .secCount => s.secCount
  | .secLen i => s.secLen[i]
  | .secAddr i => s.secAddr[i]

/-- What a host read of a window offset returns: the register's value, 0 at a reserved offset (R22). -/
def State.readOffset (s : State) (off : Nat) : Word :=
  match registerAt off with
  | some r => s.get r
  | none => 0

/-- What a host write of `v` to a register does while the block is idle (R22): RW registers store all 32
bits, CTRL its two bits (R25), RO registers nothing, and CMD issues the command (R27, R191). -/
def State.hostSet (s : State) (r : Reg) (v : Word) : State :=
  match r with
  | .ctrl => { s with ctrl := v.setWidth 2 }
  | .status => s
  | .cmd => s.issue v
  | .srcAddr => { s with srcAddr := v }
  | .srcLen => { s with srcLen := v }
  | .dstAddr => { s with dstAddr := v }
  | .auxAddr => { s with auxAddr := v }
  | .auxLen => { s with auxLen := v }
  | .width => { s with width := v }
  | .height => { s with height := v }
  | .din => { s with din := v }
  | .dout => s
  | .swidth => s
  | .outLen => s
  | .secCount => s
  | .secLen _ => s
  | .secAddr _ => s

/-- A host write of `v` to a window offset while the block is idle; a reserved offset ignores it (R22). -/
def State.writeOffset (s : State) (off : Nat) (v : Word) : State :=
  match registerAt off with
  | some r => s.hostSet r v
  | none => s

end Sys2Proof.Machine
end

