-- ==== Sys2Proof/Machine/ColorPacking.lean ====
section
/-! DEFINITION. The colour functions and the colour packing commands (40_color_packing.md). -/

namespace Sys2Proof.Machine

/-- `expand5` (R10, R101): the top 2 bits of the channel fill the low 2 bits of the result. -/
def expand5 (c : BitVec 5) : Byte := (c.setWidth 8 <<< 3) ||| (c.setWidth 8 >>> 3)

/-- `Pixel(r, g, b, a)` (R10): R in bits 7:0, G in 15:8, B in 23:16, A in 31:24. -/
def pixel (r g b a : Byte) : Word := a ++ b ++ g ++ r

/-- Alpha on unpack (R102). -/
def unpackAlpha (w : Packed) (hasAlpha : Bool) : Byte :=
  if hasAlpha then (if w.getLsbD 15 then 0xFF else 0x00) else 0xFF

/-- `unpack` (R103): red in bits 4:0, green in 9:5, blue in 14:10, alpha in 15 (R100). -/
def unpack (w : Packed) (hasAlpha : Bool) : Word :=
  pixel (expand5 (w.extractLsb' 0 5)) (expand5 (w.extractLsb' 5 5)) (expand5 (w.extractLsb' 10 5))
    (unpackAlpha w hasAlpha)

/-- Alpha on pack (R105). -/
def packAlpha (p : Word) (hasAlpha : Bool) : Bool :=
  hasAlpha && decide (128 ≤ (p.extractLsb' 24 8).toNat)

/-- `pack` (R104, R105): the top 5 bits of each channel, `alpha ++ p[23:19] ++ p[15:11] ++ p[7:3]`. -/
def pack (p : Word) (hasAlpha : Bool) : Packed :=
  BitVec.ofBool (packAlpha p hasAlpha)
    ++ p.extractLsb' 19 5 ++ p.extractLsb' 11 5 ++ p.extractLsb' 3 5

/-- The packed colour in DIN[15:0] (R32). -/
def State.dinWord (s : State) : Packed := s.din.extractLsb' 0 16

/-- The 4 bytes of a pixel in `MEM`: R, G, B, A at rising addresses (R53). -/
def pixelBytes (p : Word) : List Byte := leBytes 4 p.toNat

/-- The packed colour at `a` (R54); none where a byte is unwritten. -/
def Memory.packedAt (m : Memory) (a : Nat) : Option Packed := (m.readNat a 2).map (BitVec.ofNat 16)

/-- R106, `UNPK5551`. -/
def execUnpk5551 (s : State) : Host.Outcome State Fault Refusal :=
  finish s (.done { s with dout := unpack s.dinWord true })

/-- R107, `UNPK555`. -/
def execUnpk555 (s : State) : Host.Outcome State Fault Refusal :=
  finish s (.done { s with dout := unpack s.dinWord false })

/-- R108, `PACK5551`. -/
def execPack5551 (s : State) : Host.Outcome State Fault Refusal :=
  finish s (.done { s with dout := (pack s.din true).setWidth 32 })

/-- R109, `PACK555`. -/
def execPack555 (s : State) : Host.Outcome State Fault Refusal :=
  finish s (.done { s with dout := (pack s.din false).setWidth 32 })

/-- The rule of CONV5551 and CONV555 (R110, R111): every word of the storage buffer, unpacked. -/
def convRule (hasAlpha : Bool) (s : State) : Verdict :=
  copyRule s (2 * s.elems) s.elems (4 * s.elems) fun p =>
    (s.mem.packedAt (s.src + 2 * p)).map fun w => pixelBytes (unpack w hasAlpha)

/-- R110, `CONV5551`. -/
def execConv5551 (s : State) : Host.Outcome State Fault Refusal := finish s (convRule true s)

/-- R111, `CONV555`. -/
def execConv555 (s : State) : Host.Outcome State Fault Refusal := finish s (convRule false s)

end Sys2Proof.Machine
end

