-- ==== Sys2Proof/Machine/Container.lean ====
section
/-! DEFINITION. The container header parser (42_container_header.md). -/

namespace Sys2Proof.Machine

/-- The magic "UGAR" as a little-endian natural (R56, R151, log 20). -/
def magicWord : Nat := 0x52414755

/-- Bytes of the header before the sections, for `count` sections (R56). -/
def tableBytes (count : Nat) : Nat := 8 + 4 * count

/-- The magic check (R151): with MAGIC_CHECK = 0 the 4 bytes are not read at all. -/
def checkMagic (s : State) (rest : Verdict) : Verdict :=
  if s.magicCheck then
    load (s.mem.readNat s.src 4) fun v => if v = magicWord then rest else .raised .malformedHeader
  else rest

/-- The count is one the format allows (R154): 1 to MAX_SECTIONS, and 2 for NBF and NPF. -/
def countAllowed (f : Fmt) (count : Nat) : Bool :=
  decide (count ≠ 0 ∧ count ≤ Config.maxSections)
    && match f with
      | .gen => true
      | .nbf => decide (count = 2)
      | .npf => decide (count = 2)
      | .reserved => false

/-- The declared section lengths, read from the table: `count` little-endian u32 from `a` up (R55, R56). -/
def Memory.readWords (m : Memory) : Nat → Nat → Option (List Nat)
  | _, 0 => some []
  | a, n + 1 =>
    match m.readNat a 4 with
    | none => none
    | some v => (m.readWords (a + 4) n).map (v :: ·)

/-- The bytes each section occupies (R152): NPF section 0 takes `pow2ceil` of its declared length. -/
def occupied (f : Fmt) (lens : List Nat) : List Nat :=
  match f, lens with
  | .npf, l :: ls => pow2ceil l :: ls
  | _, ls => ls

/-- What a successful HDR commits (R36 to R38, R155): the count, the declared lengths, and the address of
each section, `base + tbl` plus the bytes the sections before it occupy; 0 past the count. -/
def State.commitSections (s : State) (first : Nat) (lens occ : List Nat) : State :=
  { s with
    secCount := BitVec.ofNat 32 lens.length
    secLen := Vector.ofFn fun i => BitVec.ofNat 32 (lens.getD i.val 0)
    secAddr := Vector.ofFn fun i =>
      if i.val < lens.length then BitVec.ofNat 32 (first + (occ.take i.val).sum) else 0 }

/-- The length check and the commit of HDR (R153, R155), `lens` being the declared lengths. -/
def sectionsRule (f : Fmt) (s : State) (lens : List Nat) : Verdict :=
  let occ := occupied f lens
  let tbl := tableBytes lens.length
  let rem := s.srcLen.toNat - tbl
  if rem < occ.sum then .raised .truncatedBuffer
  else if s.strictLen && decide (occ.sum < rem) then .raised .malformedHeader
  else .done (s.commitSections (s.src + tbl) lens occ)

/-- The rule of HDR from the count on (R154, R155). -/
def tableRule (f : Fmt) (s : State) (count : Nat) : Verdict :=
  if !countAllowed f count then .raised .malformedHeader
  else if s.srcLen.toNat < tableBytes count then .raised .malformedHeader
  else load (s.mem.readWords (s.src + 8) count) (sectionsRule f s)

/-- The rule of HDR (R155). -/
def hdrRule (f : Fmt) (s : State) : Verdict :=
  if !s.srcInMem then .raised .addressRange
  else if s.srcLen.toNat < 8 then .raised .malformedHeader
  else checkMagic s (load (s.mem.readNat (s.src + 4) 4) (tableRule f s))

/-- R155, `HDR.GEN`, `HDR.NBF`, `HDR.NPF`; FMT = 3 raises UNSUPPORTED_FORMAT before anything else (R74,
R204, log 13). -/
def execHdr (f : Fmt) (s : State) : Host.Outcome State Fault Refusal :=
  if f.legal then finish s (hdrRule f s) else s.raise .unsupportedFormat

end Sys2Proof.Machine
end

