-- ==== Sys2Proof/Machine/Control.lean ====
section
/-! DEFINITION. Command control (44_control.md): NOP. -/

namespace Sys2Proof.Machine

/-- R190, `NOP`: nothing but the success status. -/
def execNop (s : State) : Host.Outcome State Fault Refusal := finish s (.done s)

end Sys2Proof.Machine
end

