-- ==== Sys2Proof/Machine/Geometry.lean ====
section
/-! DEFINITION. The power-of-two geometry commands (41_geometry.md). -/

namespace Sys2Proof.Machine

/-- The rule of SWID (R133). -/
def swidRule (s : State) : Verdict :=
  if maxWidth < s.w then .raised .invalidDimensions
  else .done { s with swidth := BitVec.ofNat 32 s.sw }

/-- R133, `SWID`. -/
def execSwid (s : State) : Host.Outcome State Fault Refusal := finish s (swidRule s)

/-- The rule of PAD (R134) for elements of `e` bytes. Output element `p` is row `y = p div SW`, column
`c = p mod SW`, and copies source column `min(c, W - 1)` of that row. -/
def padRule (e : Nat) (s : State) : Verdict :=
  copyRule s (e * s.w * s.h) (s.sw * s.h) (e * s.sw * s.h) fun p =>
    s.mem.readBytes (s.src + e * (p / s.sw * s.w + min (p % s.sw) (s.w - 1))) e

/-- The rule of CROP (R135) for elements of `e` bytes. Output element `p` is row `y = p div W`, column
`c = p mod W`, and copies that column of storage row `y`. -/
def cropRule (e : Nat) (s : State) : Verdict :=
  copyRule s (e * s.sw * s.h) (s.w * s.h) (e * s.w * s.h) fun p =>
    s.mem.readBytes (s.src + e * (p / s.w * s.sw + p % s.w)) e

/-- R134, `PAD.E1`, `PAD.E2`, `PAD.E4`; ESIZE = 3 raises ILLEGAL_COMMAND before anything else (R73,
R204, log 13). -/
def execPad (e : ESize) (s : State) : Host.Outcome State Fault Refusal :=
  if e.legal then finish s (padRule (elemBytes e) s) else s.raise .illegalCommand

/-- R135, `CROP.E1`, `CROP.E2`, `CROP.E4`; ESIZE = 3 raises ILLEGAL_COMMAND before anything else (R73,
R204, log 13). -/
def execCrop (e : ESize) (s : State) : Host.Outcome State Fault Refusal :=
  if e.legal then finish s (cropRule (elemBytes e) s) else s.raise .illegalCommand

end Sys2Proof.Machine
end

