-- ==== Sys2Proof/Machine/Palette.lean ====
section
/-! DEFINITION. The indexed palette unpack commands (43_indexed_palette.md). -/

namespace Sys2Proof.Machine

/-- Bytes of the NBF palette, and the only legal AUX_LEN of PAL8 (R170). -/
def nbfPaletteBytes : Nat := 512

/-- The palette entries unpacked without alpha from `n` packed colours at `a` up (R170, R171); none where
a byte is unwritten. -/
def Memory.readPalette (m : Memory) : Nat → Nat → Option (List Word)
  | _, 0 => some []
  | a, n + 1 =>
    match m.packedAt a with
    | none => none
    | some w => (m.readPalette (a + 2) n).map (unpack w false :: ·)

/-- The rule of PAL8 (R174). All 512 palette bytes are read, also when N = 0. -/
def pal8Rule (s : State) : Verdict :=
  let n := s.elems
  let out := 4 * n
  if maxWidth < s.w then .raised .invalidDimensions
  else if !s.srcInMem then .raised .addressRange
  else if s.auxLen.toNat ≠ nbfPaletteBytes then .raised .malformedHeader
  else if s.srcLen.toNat < n then .raised .truncatedBuffer
  else if !s.inMem s.aux nbfPaletteBytes then .raised .addressRange
  else if !s.inMem s.dst out then .raised .addressRange
  else if !(disjoint s.dst out s.src n && disjoint s.dst out s.aux nbfPaletteBytes) then
    .raised .overlap
  else
    load (s.mem.readPalette s.aux 256) fun pal =>
      load
        (gather n fun p =>
          (s.mem.read (s.src + p)).map fun ix => pixelBytes (pal.getD ix.toNat 0))
        fun bytes => .done (s.commitOutput out bytes)

/-- R174, `PAL8`. -/
def execPal8 (s : State) : Host.Outcome State Fault Refusal := finish s (pal8Rule s)

/-- The colour entries of the NPF palette (R171). -/
def npfEntries : Nat := 15

/-- The index of storage element `p` in its byte `b` (R172): the low nibble when `p` is even. -/
def nibble (p : Nat) (b : Byte) : Nat :=
  if p % 2 = 0 then (b.extractLsb' 0 4).toNat else (b.extractLsb' 4 4).toNat

/-- The pixel of an NPF index (R171, R173): index 0 is transparent, index `i` is word `i - 1` of the
palette, and opaque black where the palette is too short to hold that word. -/
def npfPixel (pal : List Word) (idx : Nat) : Word :=
  if idx = 0 then 0x00000000 else pal.getD (idx - 1) 0xFF000000

/-- The rule of PAL4 (R175). Only `2 * nw` bytes of the palette are read; its whole occupancy is checked. -/
def pal4Rule (s : State) : Verdict :=
  let n := s.elems
  let nbytes := (n + 1) / 2
  let occ := pow2ceil s.auxLen.toNat
  let out := 4 * n
  if maxWidth < s.w then .raised .invalidDimensions
  else if !s.srcInMem then .raised .addressRange
  else if s.srcLen.toNat < nbytes then .raised .truncatedBuffer
  else if !s.inMem s.aux occ then .raised .addressRange
  else if !s.inMem s.dst out then .raised .addressRange
  else if !(disjoint s.dst out s.src nbytes && disjoint s.dst out s.aux occ) then .raised .overlap
  else
    load (s.mem.readPalette s.aux (min npfEntries (occ / 2))) fun pal =>
      load
        (gather n fun p =>
          (s.mem.read (s.src + p / 2)).map fun b => pixelBytes (npfPixel pal (nibble p b)))
        fun bytes => .done (s.commitOutput out bytes)

/-- R175, `PAL4`. -/
def execPal4 (s : State) : Host.Outcome State Fault Refusal := finish s (pal4Rule s)

end Sys2Proof.Machine
end

