-- ==== Sys2Proof/Machine/Dispatch.lean ====
section
/-! DEFINITION. The meaning of every command: one arm per constructor of Instr. -/

namespace Sys2Proof.Machine

def exec (i : Instr) (s : State) : Host.Outcome State Fault Refusal :=
  match i with
  | .nop => Sys2Proof.Machine.execNop s
  | .unpk5551 => Sys2Proof.Machine.execUnpk5551 s
  | .unpk555 => Sys2Proof.Machine.execUnpk555 s
  | .pack5551 => Sys2Proof.Machine.execPack5551 s
  | .pack555 => Sys2Proof.Machine.execPack555 s
  | .swid => Sys2Proof.Machine.execSwid s
  | .conv5551 => Sys2Proof.Machine.execConv5551 s
  | .conv555 => Sys2Proof.Machine.execConv555 s
  | .pad e => Sys2Proof.Machine.execPad e s
  | .crop e => Sys2Proof.Machine.execCrop e s
  | .pal8 => Sys2Proof.Machine.execPal8 s
  | .pal4 => Sys2Proof.Machine.execPal4 s
  | .hdr f => Sys2Proof.Machine.execHdr f s

end Sys2Proof.Machine
end

