-- ==== Sys2Proof/Machine/HostBus.lean ====
section
/-! DEFINITION. The host's accesses to the register window and to `MEM` (R20, R22, R60, R234), and the
reset input and power (R230 to R232, R68). -/

namespace Sys2Proof.Machine

/-- The window offset of STATUS, the one register the host may read while the block is busy (R21, R234). -/
def statusOffset : Nat := 0x004

/-- A register access is an aligned 32-bit one (R20). -/
def registerAccessLegal (off width : Nat) : Bool := decide (width = 4 ∧ off % 4 = 0)

/-- A `MEM` access is of 1, 2 or 4 bytes (R60). -/
def memAccessLegal (width : Nat) : Bool := decide (width = 1 ∨ width = 2 ∨ width = 4)

/-- A host register read (R20, R22, R234). The order of the stops is the model's (log 14). -/
def hostReadReg (off width : Nat) (s : State) : Host.Outcome State Fault Refusal :=
  if !registerAccessLegal off width then .refused .registerAccessForm
  else if s.busy && decide (off ≠ statusOffset) then .refused .hostBusy
  else if Config.windowBytes ≤ off then .fault .outsideWindow
  else .next { s with reply := some (s.readOffset off) }

/-- A host register write (R20, R22, R27, R234). -/
def hostWriteReg (off width : Nat) (v : Word) (s : State) : Host.Outcome State Fault Refusal :=
  if !registerAccessLegal off width then .refused .registerAccessForm
  else if s.busy then .refused .hostBusy
  else if Config.windowBytes ≤ off then .fault .outsideWindow
  else .next (s.writeOffset off v)

/-- A host read of `MEM` (R60, R234). A byte nobody has written has no value to return (R68, log 10). -/
def hostReadMem (addr width : Nat) (s : State) : Host.Outcome State Fault Refusal :=
  if !memAccessLegal width then .refused .memAccessWidth
  else if s.busy then .refused .hostBusy
  else if !s.inMem addr width then .fault .outsideMem
  else
    match s.mem.readNat addr width with
    | some v => .next { s with reply := some (BitVec.ofNat 32 v) }
    | none => .fault .unwrittenByte

/-- A host write of the low `width` bytes of `v` to `MEM` (R60, R234). -/
def hostWriteMem (addr width : Nat) (v : Word) (s : State) : Host.Outcome State Fault Refusal :=
  if !memAccessLegal width then .refused .memAccessWidth
  else if s.busy then .refused .hostBusy
  else if !s.inMem addr width then .fault .outsideMem
  else .next { s with mem := s.mem.writeNat addr width v.toNat }

/-- One access of the host. -/
def hostAccess (a : HostAccess) (s : State) : Host.Outcome State Fault Refusal :=
  match a with
  | .readReg off width => hostReadReg off width s
  | .writeReg off width v => hostWriteReg off width v s
  | .readMem addr width => hostReadMem addr width s
  | .writeMem addr width v => hostWriteMem addr width v s

/-- The reset input (R41, R230, R232): every register and mark as after reset, a pending command
abandoned, `MEM` kept. The model's own fields stay (log 15). -/
def State.assertReset (s : State) : State :=
  { State.reset with mem := s.mem, memExp := s.memExp, agenda := s.agenda, reply := s.reply }

/-- Power removed and back (R68, R232, log 21): as a reset, and every byte of `MEM` is unwritten. -/
def State.cyclePower (s : State) : State := { s.assertReset with mem := [] }

end Sys2Proof.Machine
end

