-- ==== Sys2Proof/Machine/Turns.lean ====
section
/-! DEFINITION. One turn of an agent: the block's execute step (R191), an access of the host, the reset
input, power (log 2). -/

namespace Sys2Proof.Machine

/-- Whose turn is next: the head of the agenda; past its end the block moves (log 2). -/
def State.nextTurn (s : State) : Turn := s.agenda.headD .block

/-- The state once that turn is taken off the agenda. -/
def State.takeTurn (s : State) : State := { s with agenda := s.agenda.tail }

/-- R191, execute: decode the word in CMD and run it. A rejected word raises its error (R78, R204). -/
def executeCommand (s : State) : Host.Outcome State Fault Refusal :=
  match decode s.cmd with
  | .command i => exec i s
  | .rejected r => s.raise (rejectionError r)

/-- The block's turn: the execute step is enabled exactly while a command is pending (R191); an idle block
does nothing (R213, log 16). -/
def blockTurn (s : State) : Host.Outcome State Fault Refusal :=
  match s.phase with
  | .pending => executeCommand s
  | .idle => .next s

/-- One turn. -/
def runTurn (t : Turn) (s : State) : Host.Outcome State Fault Refusal :=
  match t with
  | .host a => hostAccess a s
  | .reset => .next s.assertReset
  | .power => .next s.cyclePower
  | .block => blockTurn s

/-- A command word waiting in CMD with the block's turn next: the state right after the host's write of
CMD, and the execute step comes first (R191, log 3). -/
def State.withCommand (s : State) (w : Word) : State :=
  { s.issue w with agenda := .block :: s.agenda }

end Sys2Proof.Machine
end

