-- ==== Sys2Proof/Machine/Marks.lean ====
section
/-! DEFINITION. The model marks of R40 over whole runs: a run that goes on past a stop and records it. -/

namespace Sys2Proof.Machine

/-- A step that always goes on: a fault or a refusal sets its mark and changes nothing else but that the
turn is spent (R40, R214, log 6). No mark is ever cleared here, except by the reset input (R41). -/
def stepMarked (s : State) : State :=
  match step s with
  | .next t => t
  | .fault _ => { s.takeTurn with faultMark := true }
  | .refused _ => { s.takeTurn with refusedMark := true }

/-- `n` marked steps. -/
def runMarked : Nat → State → State
  | 0, s => s
  | n + 1, s => runMarked n (stepMarked s)

end Sys2Proof.Machine
end

