-- ==== Sys2Proof/Safety.lean ====
section
/-! DEFINITION. What counts as a safe state and a finished run: the invariant of the machine, the marks
(R40), and the end of a run (R240). -/

namespace Sys2Proof

open Machine

/-- Neither model mark is set: the premise of every claim about a run (R40). -/
def unmarked (s : State) : Bool := !s.refusedMark && !s.faultMark

/-- R240: the host has stopped, the block is idle, and no mark is set. -/
def ended (s : State) : Bool := decide (s.agenda = []) && !s.busy && unmarked s

/-- STATUS is one the block can hold (R26, R191, R194, R201): while a command is pending nothing is
reported, and when none is, ERR, ERRCODE and DONE agree and ERRCODE is at most 7. -/
def statusWf (s : State) : Bool :=
  match s.phase with
  | .pending => !s.done && !s.err && decide (s.errCode = 0)
  | .idle => decide (s.err = decide (s.errCode ≠ 0)) && (!s.err || s.done) && decide (s.errCode.toNat ≤ 7)

/-- SWIDTH is 0 or a power of two from 2^0 to 2^31 (R34). -/
def swidthWf (s : State) : Bool :=
  decide (s.swidth = 0) || decide (2 ^ s.swidth.toNat.log2 = s.swidth.toNat)

/-- The section table (R36 to R38, R155): the count is at most MAX_SECTIONS, entries past it are 0, and
every address is at most MEM_SIZE. -/
def sectionsWf (s : State) : Prop :=
  s.secCount.toNat ≤ Config.maxSections
    ∧ (∀ i : Fin Config.maxSections, s.secCount.toNat ≤ i.val → s.secLen[i] = 0 ∧ s.secAddr[i] = 0)
    ∧ ∀ i : Fin Config.maxSections, s.secAddr[i].toNat ≤ s.memSize

/-- The invariant of the machine: `MEM` is in canonical form and inside MEM_SIZE (R50), STATUS, SWIDTH and
the section table are as the spec says they can be, and OUT_LEN is at most MEM_SIZE (R12). -/
structure Invariant (s : State) : Prop where
  mem : Memory.wf s.memSize s.mem = true
  status : statusWf s = true
  swidth : swidthWf s = true
  outLen : s.outLen.toNat ≤ s.memSize
  sections : sectionsWf s

end Sys2Proof
end

