-- ==== Sys2Proof/Certificates/Slice0/Obligations.lean ====
section
/-! DEFINITION. The statements for the provers. Each docstring names the rule of spec/ it formalises, or the
log entry it rests on. Where a statement says how a command ends, it says it for every state, with the
errors in the order of the rule. -/

namespace Sys2Proof.Spec

open Machine

/-- The success status of R194 on top of what a command has written. -/
def succeeded (t : State) : State := { t with phase := .idle, done := true, err := false, errCode := 0 }

/-- What a raise of the error with number `code` leaves (R203). -/
def raised (s : State) (code : BitVec 4) : State :=
  { s with phase := .idle, done := true, err := true, errCode := code }

/-- `InMem(a, n)` (R9). -/
def InMem (s : State) (a n : Nat) : Prop := n = 0 ∨ a + n ≤ s.memSize

/-- `Disjoint(a, n, b, m)` (R9). -/
def Apart (a n b m : Nat) : Prop := n = 0 ∨ m = 0 ∨ a + n ≤ b ∨ b + m ≤ a

/-- Somebody has written each of the `n` bytes from `a` up (R68). -/
def Written (s : State) (a n : Nat) : Prop := ∀ k < n, (s.mem.read (a + k)).isSome = true

/-- Every byte outside the `n` bytes from `a` up reads in `t` as in `s`. -/
def SameOutside (s t : State) (a n : Nat) : Prop :=
  ∀ x, ¬ (a ≤ x ∧ x < a + n) → t.mem.read x = s.mem.read x

/-- `SW` (R10). -/
def SW (s : State) : Nat := pow2ceil s.width.toNat

/-- `N` (R10). -/
def N (s : State) : Nat := SW s * s.height.toNat

/-- The command `i` run in `s` raises the first error of the list whose condition holds, and only that one
(R204); if none holds, `rest` is the case. -/
def checked (i : Instr) (s : State) : List (Prop × BitVec 4) → Prop → Prop
  | [], rest => rest
  | (bad, code) :: more, rest =>
    (bad → exec i s = .next (raised s code)) ∧ (¬ bad → checked i s more rest)

/-- The command `i` run in `s` faults: it reads an unwritten byte (R68, R214). -/
def Faults (i : Instr) (s : State) : Prop := exec i s = .fault .unwrittenByte

/-- The command `i` run in `s` completes in `t`, having written nothing but `out` bytes at DST_ADDR, OUT_LEN
and the success status (R194). -/
def Outputs (i : Instr) (s t : State) (out : Nat) : Prop :=
  exec i s = .next t ∧ t = succeeded { s with mem := t.mem, outLen := t.outLen }
    ∧ t.outLen.toNat = out ∧ SameOutside s t s.dstAddr.toNat out

/-- The checks CONV, PAD and CROP make, in their order (R110, R134, R135). -/
def copyChecks (s : State) (need out : Nat) : List (Prop × BitVec 4) :=
  [(2 ^ 31 < s.width.toNat, 3),
   (¬ InMem s s.srcAddr.toNat s.srcLen.toNat, 6),
   (s.srcLen.toNat < need, 1),
   (¬ InMem s s.dstAddr.toNat out, 6),
   (¬ Apart s.dstAddr.toNat out s.srcAddr.toNat need, 7)]

/-- The rule of CONV5551 (R110) or CONV555 (R111). -/
def ConvRule (i : Instr) (hasAlpha : Bool) : Prop :=
  ∀ s : State, checked i s (copyChecks s (2 * N s) (4 * N s))
    ((¬ Written s s.srcAddr.toNat (2 * N s) → Faults i s) ∧
      (Written s s.srcAddr.toNat (2 * N s) → ∃ t, Outputs i s t (4 * N s) ∧
        ∀ p < N s, ∃ w, s.mem.readNat (s.srcAddr.toNat + 2 * p) 2 = some w ∧
          t.mem.readNat (s.dstAddr.toNat + 4 * p) 4
            = some (unpack (BitVec.ofNat 16 w) hasAlpha).toNat))

/-- The checks PAL8 makes, in their order (R174). -/
def pal8Checks (s : State) : List (Prop × BitVec 4) :=
  [(2 ^ 31 < s.width.toNat, 3),
   (¬ InMem s s.srcAddr.toNat s.srcLen.toNat, 6),
   (s.auxLen.toNat ≠ 512, 2),
   (s.srcLen.toNat < N s, 1),
   (¬ InMem s s.auxAddr.toNat 512, 6),
   (¬ InMem s s.dstAddr.toNat (4 * N s), 6),
   (¬ Apart s.dstAddr.toNat (4 * N s) s.srcAddr.toNat (N s) ∨
      ¬ Apart s.dstAddr.toNat (4 * N s) s.auxAddr.toNat 512, 7)]

/-- The checks PAL4 makes, in their order (R175): it reads `nbytes` bytes of indices, and its palette
occupies `occ` bytes. -/
def pal4Checks (s : State) (nbytes occ : Nat) : List (Prop × BitVec 4) :=
  [(2 ^ 31 < s.width.toNat, 3),
   (¬ InMem s s.srcAddr.toNat s.srcLen.toNat, 6),
   (s.srcLen.toNat < nbytes, 1),
   (¬ InMem s s.auxAddr.toNat occ, 6),
   (¬ InMem s s.dstAddr.toNat (4 * N s), 6),
   (¬ Apart s.dstAddr.toNat (4 * N s) s.srcAddr.toNat nbytes ∨
      ¬ Apart s.dstAddr.toNat (4 * N s) s.auxAddr.toNat occ, 7)]

/-- The bytes of an element (R73). -/
def size : ESize → Nat
  | .e1 => 1
  | .e2 => 2
  | .e4 => 4
  | .reserved => 0

/-- The length of section `j` in the buffer (R152). -/
def occupiedLen (f : Fmt) (lens : List Nat) (j : Nat) : Nat :=
  if f = .npf ∧ j = 0 then pow2ceil (lens.getD 0 0) else lens.getD j 0

/-- The bytes the sections before section `i` occupy (R155). -/
def occupiedBefore (f : Fmt) (lens : List Nat) (i : Nat) : Nat :=
  ((List.range i).map (occupiedLen f lens)).sum

/-- The bytes of a container header as R56 lays them out: "UGAR", the count, the lengths. The code values of
the four letters are PRESUMED (log 20): R56 takes them from general knowledge. -/
def headerBytes (lens : List Nat) : List Byte :=
  [0x55, 0x47, 0x41, 0x52] ++ leBytes 4 lens.length ++ lens.flatMap (leBytes 4)

/-- The same outcome with another next state. -/
def mapNext (g : State → State) :
    Host.Outcome State Fault Refusal → Host.Outcome State Fault Refusal
  | .next t => .next (g t)
  | .fault r => .fault r
  | .refused r => .refused r

/-- The ranges of `MEM` a command reads, as (address, length) (R202); for CROP the rows it could read. -/
def inputs (i : Instr) (s : State) : List (Nat × Nat) :=
  match i with
  | .conv5551 | .conv555 => [(s.srcAddr.toNat, 2 * N s)]
  | .pad e => [(s.srcAddr.toNat, size e * s.width.toNat * s.height.toNat)]
  | .crop e => [(s.srcAddr.toNat, size e * SW s * s.height.toNat)]
  | .pal8 => [(s.srcAddr.toNat, N s), (s.auxAddr.toNat, 512)]
  | .pal4 => [(s.srcAddr.toNat, (N s + 1) / 2), (s.auxAddr.toNat, pow2ceil s.auxLen.toNat)]
  | .hdr _ => [(s.srcAddr.toNat, s.srcLen.toNat)]
  | .nop | .unpk5551 | .unpk555 | .pack5551 | .pack555 | .swid => []

/-- The registers the host may write (R21): RW, that is, without CMD. -/
def writable : List Reg :=
  [.ctrl, .srcAddr, .srcLen, .dstAddr, .auxAddr, .auxLen, .width, .height, .din]

/-- A 5-bit channel on 8 bits: shifted left by 3, with its top 2 bits in the low 2 (R101). -/
def channel (c : Nat) : Nat := 8 * c + c / 8

end Sys2Proof.Spec

open Sys2Proof Sys2Proof.Machine Sys2Proof.Spec

/-! ### Encoding (30_encoding.md) -/

/-- R79: the words of the assembler forms, and of no other; each well-formed command is the decoding of its
own word and of no other. -/
def Obligations.DecodeInvertsEncodeBothWays : Prop :=
  ∀ (w : Word) (i : Instr), decode w = .command i ↔ i.wellFormed = true ∧ encode i = w

/-- R79: the encodings of every legal command word, which are 19; 0x00000C18 decodes to UNSUPPORTED_FORMAT
and every other word to ILLEGAL_COMMAND. -/
def Obligations.DecodeTableOfAllWords : Prop :=
  let table : List (Word × Instr) :=
    [(0x00000000, .nop), (0x00000001, .unpk5551), (0x00000002, .unpk555), (0x00000003, .pack5551),
     (0x00000004, .pack555), (0x00000005, .swid), (0x00000008, .conv5551), (0x00000009, .conv555),
     (0x0000000C, .pad .e1), (0x0000010C, .pad .e2), (0x0000020C, .pad .e4),
     (0x0000000D, .crop .e1), (0x0000010D, .crop .e2), (0x0000020D, .crop .e4),
     (0x00000010, .pal8), (0x00000011, .pal4),
     (0x00000018, .hdr .gen), (0x00000418, .hdr .nbf), (0x00000818, .hdr .npf)]
  (∀ w i, decode w = .command i ↔ (w, i) ∈ table) ∧
    (∃ r, decode 0x00000C18 = .rejected r ∧ rejectionError r = .unsupportedFormat) ∧
    ∀ w, w ∉ table.map Prod.fst → w ≠ 0x00000C18 →
      ∃ r, decode w = .rejected r ∧ rejectionError r = .illegalCommand

/-- R75, R76, R78: what a rejected word has wrong, in the order RSV, OP, fields. -/
def Obligations.DecodeRejectsByField : Prop :=
  ∀ w : Word,
    (w.extractLsb' 12 20 ≠ 0 → decode w = .rejected .reservedBits) ∧
    (w.extractLsb' 12 20 = 0 →
      (w.extractLsb' 0 8).toNat ∈ [0x06, 0x07, 0x0A, 0x0B, 0x0E, 0x0F] ∨
        (0x12 ≤ (w.extractLsb' 0 8).toNat ∧ (w.extractLsb' 0 8).toNat ≤ 0x17) ∨
        0x19 ≤ (w.extractLsb' 0 8).toNat →
      decode w = .rejected .reservedOpcode) ∧
    (w.extractLsb' 12 20 = 0 → w.extractLsb' 0 8 = 0x0C ∨ w.extractLsb' 0 8 = 0x0D →
      (w.extractLsb' 10 2 ≠ 0 → decode w = .rejected .unusedField) ∧
      (w.extractLsb' 10 2 = 0 → w.extractLsb' 8 2 = 3 → decode w = .rejected .reservedSize)) ∧
    (w.extractLsb' 12 20 = 0 → w.extractLsb' 0 8 = 0x18 →
      (w.extractLsb' 8 2 ≠ 0 → decode w = .rejected .unusedField) ∧
      (w.extractLsb' 8 2 = 0 → w.extractLsb' 10 2 = 3 → decode w = .rejected .unsupportedFormat)) ∧
    (w.extractLsb' 12 20 = 0 →
      (w.extractLsb' 0 8).toNat ∈ [0x00, 0x01, 0x02, 0x03, 0x04, 0x05, 0x08, 0x09, 0x10, 0x11] →
      w.extractLsb' 8 2 ≠ 0 ∨ w.extractLsb' 10 2 ≠ 0 → decode w = .rejected .unusedField)

/-- R79: one word of each family, bit by bit. -/
def Obligations.DecodeSampleWords : Prop :=
  decode 0b00000000000000000000000000000000 = .command .nop ∧
  decode 0b00000000000000000000000000000001 = .command .unpk5551 ∧
  decode 0b00000000000000000000000000000100 = .command .pack555 ∧
  decode 0b00000000000000000000000000001001 = .command .conv555 ∧
  decode 0b00000000000000000000000100001100 = .command (.pad .e2) ∧
  decode 0b00000000000000000000001000001101 = .command (.crop .e4) ∧
  decode 0b00000000000000000000000000010001 = .command .pal4 ∧
  decode 0b00000000000000000000100000011000 = .command (.hdr .npf)

/-! ### The step (44_control.md) -/

/-- R191, execute: while a command is pending and the block moves (the model's turns, log 2), a step is the
command CMD decodes to, run in the state with that turn taken off the agenda. Nothing else is added: the
block has no program counter (R24). -/
def Obligations.StepRunsDecodedCommand : Prop :=
  ∀ (s : State) (i : Instr), s.phase = .pending → s.nextTurn = .block → decode s.cmd = .command i →
    step s = exec i s.takeTurn

/-- R75, R78, R203, R204: while a rejected word is pending and the block moves, the step raises
ILLEGAL_COMMAND (5), or UNSUPPORTED_FORMAT (4) for HDR with FMT = 3, and changes nothing else. -/
def Obligations.StepRaisesOnRejectedWord : Prop :=
  ∀ (s : State) (r : Rejection), s.phase = .pending → s.nextTurn = .block → decode s.cmd = .rejected r →
    step s = .next (raised s.takeTurn (if r = .unsupportedFormat then 4 else 5))

/-- R73, R74, R202: PAD and CROP with ESIZE = 3 raise ILLEGAL_COMMAND, HDR with FMT = 3 raises
UNSUPPORTED_FORMAT, whatever the registers hold. The decoder never gives these terms (log 13). -/
def Obligations.ReservedFieldCodesRaise : Prop :=
  ∀ s : State, exec (.pad .reserved) s = .next (raised s 5) ∧
    exec (.crop .reserved) s = .next (raised s 5) ∧ exec (.hdr .reserved) s = .next (raised s 4)

/-- R213, R191: with no command pending the block's turn changes nothing (log 16). -/
def Obligations.IdleBlockChangesNothing : Prop :=
  ∀ s : State, s.phase = .idle → s.nextTurn = .block → step s = .next { s with agenda := s.agenda.tail }

/-- R191, issue: a host write of `w` to CMD while idle stores `w`, sets BUSY and clears DONE, ERR and
ERRCODE, so that STATUS reads 0x00000001. Nothing else changes. -/
def Obligations.CmdWriteIssuesCommand : Prop :=
  ∀ (s : State) (w : Word) (rest : List Turn), s.phase = .idle →
    ∃ t, step { s with agenda := .host (.writeReg 0x008 4 w) :: rest } = .next t ∧
      t = { s with agenda := rest, cmd := w, phase := .pending, done := false, err := false, errCode := 0 } ∧
      t.statusWord = 0x00000001

/-- R191, R238, R81: however often the host polls STATUS first, it reads BUSY = 1 with nothing reported each
time, the pending command stays as it was, and the next move is the block's. -/
def Obligations.PollingKeepsCommandPending : Prop :=
  ∀ (s : State) (n : Nat) (rest : List Turn), s.phase = .pending → s.done = false → s.err = false →
    s.errCode = 0 →
    core.run n { s with agenda := List.replicate n (.host (.readReg 0x004 4)) ++ .block :: rest }
      = .next { s with
          agenda := .block :: rest
          reply := if n = 0 then s.reply else some 0x00000001 }

/-! ### STATUS and errors (60_exceptions.md) -/

/-- R26: where each field of STATUS stands, and that every other bit is 0. -/
def Obligations.StatusWordLayout : Prop :=
  ∀ s : State,
    s.statusWord.getLsbD 0 = decide (s.phase = .pending) ∧ s.statusWord.getLsbD 1 = s.done ∧
    s.statusWord.getLsbD 2 = s.err ∧ s.statusWord.extractLsb' 8 4 = s.errCode ∧
    s.statusWord.extractLsb' 3 5 = 0 ∧ s.statusWord.extractLsb' 12 20 = 0

/-- R201, R194: after a command that ends in a next state, STATUS is 0x00000002 or one of the seven error
words; codes 8 to 15 are never produced. -/
def Obligations.StatusAfterEveryCommand : Prop :=
  ∀ (i : Instr) (s t : State), exec i s = .next t →
    t.statusWord ∈ [0x00000002, 0x00000106, 0x00000206, 0x00000306, 0x00000406, 0x00000506, 0x00000606,
      0x00000706] ∧ t.phase = .idle

/-- R203: a command that raises leaves STATUS with its code and changes nothing else: no register, no byte
of `MEM`; CMD and the operands stay readable. -/
def Obligations.RaiseChangesOnlyStatus : Prop :=
  ∀ (i : Instr) (s t : State), exec i s = .next t → t.err = true →
    t = raised s t.errCode ∧ t.errCode ≠ 0

/-- R194: a command that succeeds leaves STATUS = 0x00000002: BUSY 0, DONE 1, ERR 0, ERRCODE 0. -/
def Obligations.SuccessStatus : Prop :=
  ∀ (i : Instr) (s t : State), exec i s = .next t → t.err = false →
    t.phase = .idle ∧ t.done = true ∧ t.errCode = 0 ∧ t.statusWord = 0x00000002

/-- R132: INVALID_DIMENSIONS (3) is reported by exactly the seven commands that compute SW, exactly when
WIDTH > 2^31; HEIGHT has no part in it. -/
def Obligations.InvalidDimensionsExactly : Prop :=
  ∀ (i : Instr) (s : State), i.wellFormed = true →
    ((∃ t, exec i s = .next t ∧ t.errCode = 3) ↔
      2 ^ 31 < s.width.toNat ∧
        (i = .swid ∨ i = .conv5551 ∨ i = .conv555 ∨ (∃ e, i = .pad e) ∨ (∃ e, i = .crop e) ∨
          i = .pal8 ∨ i = .pal4))

/-- R214, R68: a command never refuses, and the one fault it can have is a read of an unwritten byte. -/
def Obligations.CommandsFaultOnlyOnUnwrittenBytes : Prop :=
  ∀ (i : Instr) (s : State),
    (∀ r, exec i s ≠ .refused r) ∧ (∀ r, exec i s = .fault r → r = .unwrittenByte) ∧
    ((∀ a, a < s.memSize → (s.mem.read a).isSome = true) → ∃ t, exec i s = .next t)

/-! ### What commands may change (10_state.md) -/

/-- R23, R25, R27: no command writes CTRL, CMD or an operand register; nor the marks, MEM_SIZE, the agenda
or the last reply (the model's own, logs 1, 2, 4, 6). -/
def Obligations.CommandsKeepOperands : Prop :=
  ∀ (i : Instr) (s t : State), exec i s = .next t →
    t.ctrl = s.ctrl ∧ t.cmd = s.cmd ∧ t.srcAddr = s.srcAddr ∧ t.srcLen = s.srcLen ∧
    t.dstAddr = s.dstAddr ∧ t.auxAddr = s.auxAddr ∧ t.auxLen = s.auxLen ∧ t.width = s.width ∧
    t.height = s.height ∧ t.din = s.din ∧ t.refusedMark = s.refusedMark ∧
    t.faultMark = s.faultMark ∧ t.memExp = s.memExp ∧ t.agenda = s.agenda ∧ t.reply = s.reply

/-- R33 to R38, R50: which commands may change each result register and `MEM`. -/
def Obligations.OnlyOwnCommandsWriteResults : Prop :=
  ∀ (i : Instr) (s t : State), exec i s = .next t →
    (i ∉ [.unpk5551, .unpk555, .pack5551, .pack555] → t.dout = s.dout) ∧
    (i ≠ .swid → t.swidth = s.swidth) ∧
    ((∀ f, i ≠ .hdr f) → t.secCount = s.secCount ∧ t.secLen = s.secLen ∧ t.secAddr = s.secAddr) ∧
    (i ∉ [.conv5551, .conv555, .pal8, .pal4] → (∀ e, i ≠ .pad e) → (∀ e, i ≠ .crop e) →
      t.outLen = s.outLen ∧ t.mem = s.mem)

/-- R28, R62, R235: no command writes a byte of a range it reads. -/
def Obligations.CommandsKeepTheirInputs : Prop :=
  ∀ (i : Instr) (s t : State), exec i s = .next t →
    ∀ r ∈ inputs i s, ∀ x, r.1 ≤ x → x < r.1 + r.2 → t.mem.read x = s.mem.read x

/-- R30: only PAL8 and PAL4 read AUX_ADDR and AUX_LEN: another command does the same whatever they hold. -/
def Obligations.OnlyPalettesReadAux : Prop :=
  ∀ (i : Instr) (s : State) (a l : Word), i ≠ .pal8 → i ≠ .pal4 →
    exec i { s with auxAddr := a, auxLen := l }
      = mapNext (fun t => { t with auxAddr := a, auxLen := l }) (exec i s)

/-- R50: the register commands and NOP never reach `MEM`: they do the same whatever it holds. -/
def Obligations.RegisterCommandsNeverReachMem : Prop :=
  ∀ (i : Instr) (s : State) (m : Memory),
    i ∈ [.nop, .unpk5551, .unpk555, .pack5551, .pack555, .swid] →
    exec i { s with mem := m } = mapNext (fun t => { t with mem := m }) (exec i s)

/-- R151: with MAGIC_CHECK = 0, HDR does the same whatever stands in the 4 magic bytes, written or not. -/
def Obligations.UncheckedMagicIsNotRead : Prop :=
  ∀ (f : Fmt) (s : State) (m : Memory), s.ctrl.getLsbD 0 = false →
    (∀ x, ¬ (s.srcAddr.toNat ≤ x ∧ x < s.srcAddr.toNat + 4) → m.read x = s.mem.read x) →
    exec (.hdr f) { s with mem := m } = mapNext (fun t => { t with mem := m }) (exec (.hdr f) s)

/-! ### The colour functions and the register commands (40_color_packing.md, 44_control.md) -/

/-- R101: `expand5` for every 5-bit channel; bit 2 of the result is always 0, and 0x1F gives 0xFB. -/
def Obligations.ExpandFiveBits : Prop :=
  (∀ c : BitVec 5, (expand5 c).toNat = channel c.toNat ∧ (expand5 c).getLsbD 2 = false) ∧
    expand5 0x1F = 0xFB

/-- R103: the unpacked pixel, channel by channel, for every packed colour and both variants. -/
def Obligations.UnpackByChannels : Prop :=
  ∀ (w : Packed) (hasAlpha : Bool),
    ((unpack w hasAlpha).extractLsb' 0 8).toNat = channel (w.toNat % 32) ∧
    ((unpack w hasAlpha).extractLsb' 8 8).toNat = channel (w.toNat / 32 % 32) ∧
    ((unpack w hasAlpha).extractLsb' 16 8).toNat = channel (w.toNat / 1024 % 32) ∧
    ((unpack w hasAlpha).extractLsb' 24 8).toNat
      = if hasAlpha = true ∧ w.toNat < 32768 then 0 else 255

/-- R104, R105: the packed colour of every pixel, as a number, for both variants. -/
def Obligations.PackByChannels : Prop :=
  ∀ (p : Word) (hasAlpha : Bool),
    (pack p hasAlpha).toNat
      = p.toNat % 256 / 8 + 32 * (p.toNat / 256 % 256 / 8) + 1024 * (p.toNat / 65536 % 256 / 8)
        + 32768 * (if hasAlpha = true ∧ 128 ≤ p.toNat / 16777216 then 1 else 0)

/-- R112: the five round-trip laws of pack and unpack. -/
def Obligations.ColourRoundTripLaws : Prop :=
  (∀ p : Word, p.extractLsb' 24 8 = 0 ∨ p.extractLsb' 24 8 = 255 →
    (unpack (pack p true) true).extractLsb' 24 8 = p.extractLsb' 24 8) ∧
  (∀ (p : Word) (a : Bool), ∀ k ∈ [0, 8, 16],
    let c := p.extractLsb' k 8
    let r := (unpack (pack p a) a).extractLsb' k 8
    r = (c &&& 0xF8) ||| (c >>> 6) ∧ c.toNat ≤ r.toNat + 7 ∧ r.toNat ≤ c.toNat + 7) ∧
  (∀ p : Word, (unpack (pack p false) false).extractLsb' 24 8 = 255) ∧
  (∀ w : Packed, pack (unpack w true) true = w) ∧
  (∀ w : Packed, pack (unpack w false) false = w &&& 0x7FFF)

/-- R106. -/
def Obligations.Unpk5551Rule : Prop :=
  encode .unpk5551 = 0x00000001 ∧
    ∀ s : State, exec .unpk5551 s
      = .next (succeeded { s with dout := unpack (s.din.extractLsb' 0 16) true })

/-- R107. -/
def Obligations.Unpk555Rule : Prop :=
  encode .unpk555 = 0x00000002 ∧
    ∀ s : State, exec .unpk555 s
      = .next (succeeded { s with dout := unpack (s.din.extractLsb' 0 16) false })

/-- R108. -/
def Obligations.Pack5551Rule : Prop :=
  encode .pack5551 = 0x00000003 ∧
    ∀ s : State, exec .pack5551 s = .next (succeeded { s with dout := (pack s.din true).setWidth 32 })

/-- R109. -/
def Obligations.Pack555Rule : Prop :=
  encode .pack555 = 0x00000004 ∧
    ∀ s : State, exec .pack555 s = .next (succeeded { s with dout := (pack s.din false).setWidth 32 })

/-- R190: NOP writes STATUS only; a word with OP = 0 and any other bit set is ILLEGAL_COMMAND. -/
def Obligations.NopRule : Prop :=
  encode .nop = 0x00000000 ∧ (∀ s : State, exec .nop s = .next (succeeded s)) ∧
    ∀ w : Word, w.extractLsb' 0 8 = 0 → w ≠ 0 →
      ∃ r, decode w = .rejected r ∧ rejectionError r = .illegalCommand

/-! ### Buffer commands -/

/-- R110: errors in their order, the pixels of a run that succeeds, and its frame. -/
def Obligations.Conv5551Rule : Prop := encode .conv5551 = 0x00000008 ∧ ConvRule .conv5551 true

/-- R111. -/
def Obligations.Conv555Rule : Prop := encode .conv555 = 0x00000009 ∧ ConvRule .conv555 false

/-- R10, R130, R131: `pow2ceil` is 0 at 0, and elsewhere the least power of two that is not smaller; a power
of two is its own. -/
def Obligations.StorageWidthIsLeastPower : Prop :=
  pow2ceil 0 = 0 ∧ (∀ k, pow2ceil (2 ^ k) = 2 ^ k) ∧
    ∀ n, 1 ≤ n → ∃ k, pow2ceil n = 2 ^ k ∧ n ≤ 2 ^ k ∧ ∀ j, n ≤ 2 ^ j → k ≤ j

/-- R133. -/
def Obligations.SwidRule : Prop :=
  encode .swid = 0x00000005 ∧
    ∀ s : State, checked .swid s [(2 ^ 31 < s.width.toNat, 3)]
      (∃ t, exec .swid s = .next t ∧ t = succeeded { s with swidth := t.swidth } ∧
        t.swidth.toNat = pow2ceil s.width.toNat)

/-- R134: PAD.E1, PAD.E2 and PAD.E4. -/
def Obligations.PadRule : Prop :=
  encode (.pad .e1) = 0x0000000C ∧ encode (.pad .e2) = 0x0000010C ∧ encode (.pad .e4) = 0x0000020C ∧
    ∀ (e : ESize) (s : State), e ≠ .reserved →
      let W := s.width.toNat
      let H := s.height.toNat
      let need := size e * W * H
      let out := size e * SW s * H
      checked (.pad e) s (copyChecks s need out)
        ((¬ Written s s.srcAddr.toNat need → Faults (.pad e) s) ∧
          (Written s s.srcAddr.toNat need → ∃ t, Outputs (.pad e) s t out ∧
            ∀ y < H, ∀ c < SW s, ∀ k < size e,
              t.mem.read (s.dstAddr.toNat + size e * (y * SW s + c) + k)
                = s.mem.read (s.srcAddr.toNat + size e * (y * W + min c (W - 1)) + k)))

/-- R135: CROP.E1, CROP.E2 and CROP.E4. The columns past WIDTH are not read. -/
def Obligations.CropRule : Prop :=
  encode (.crop .e1) = 0x0000000D ∧ encode (.crop .e2) = 0x0000010D ∧ encode (.crop .e4) = 0x0000020D ∧
    ∀ (e : ESize) (s : State), e ≠ .reserved →
      let W := s.width.toNat
      let H := s.height.toNat
      let need := size e * SW s * H
      let out := size e * W * H
      let rows := ∀ y < H, Written s (s.srcAddr.toNat + size e * (y * SW s)) (size e * W)
      checked (.crop e) s (copyChecks s need out)
        ((¬ rows → Faults (.crop e) s) ∧
          (rows → ∃ t, Outputs (.crop e) s t out ∧
            ∀ y < H, ∀ c < W, ∀ k < size e,
              t.mem.read (s.dstAddr.toNat + size e * (y * W + c) + k)
                = s.mem.read (s.srcAddr.toNat + size e * (y * SW s + c) + k)))

/-- R136: a CROP of what a PAD wrote, of the same WIDTH, HEIGHT and element size, completes wherever its
output fits and is clear of its input, and writes exactly the bytes the PAD read. -/
def Obligations.CropUndoesPad : Prop :=
  ∀ (e : ESize) (s t : State) (d : Word), e ≠ .reserved → exec (.pad e) s = .next t → t.err = false →
    let len := size e * s.width.toNat * s.height.toNat
    InMem s d.toNat len → Apart d.toNat len t.dstAddr.toNat t.outLen.toNat →
      ∃ u, exec (.crop e) { t with srcAddr := t.dstAddr, srcLen := t.outLen, dstAddr := d } = .next u ∧
        u.err = false ∧ u.outLen.toNat = len ∧
        ∀ k < len, u.mem.read (d.toNat + k) = s.mem.read (s.srcAddr.toNat + k)

/-- R155: HDR.GEN, HDR.NBF and HDR.NPF: the checks in their order, each value read from `MEM` as its byte
is reached, and what a run that succeeds leaves in SEC_COUNT, SEC_LEN and SEC_ADDR. -/
def Obligations.HdrRule : Prop :=
  encode (.hdr .gen) = 0x00000018 ∧ encode (.hdr .nbf) = 0x00000418 ∧ encode (.hdr .npf) = 0x00000818 ∧
    (∃ r, decode 0x00000C18 = .rejected r ∧ rejectionError r = .unsupportedFormat) ∧
    ∀ (f : Fmt) (s : State), f ≠ .reserved →
      let base := s.srcAddr.toNat
      let L := s.srcLen.toNat
      checked (.hdr f) s [(¬ InMem s base L, 6), (L < 8, 2)]
        ((s.ctrl.getLsbD 0 = true → ¬ Written s base 4 → Faults (.hdr f) s) ∧
          ((s.ctrl.getLsbD 0 = true → Written s base 4) →
            checked (.hdr f) s
              [(s.ctrl.getLsbD 0 = true ∧ s.mem.readNat base 4 ≠ some 0x52414755, 2)]
              ((¬ Written s (base + 4) 4 → Faults (.hdr f) s) ∧
                ∀ count, s.mem.readNat (base + 4) 4 = some count →
                  checked (.hdr f) s
                    [(count = 0 ∨ 16 < count, 2), (f ≠ .gen ∧ count ≠ 2, 2), (L < 8 + 4 * count, 2)]
                    ((¬ Written s (base + 8) (4 * count) → Faults (.hdr f) s) ∧
                      ∀ lens : List Nat, lens.length = count →
                        (∀ k < count, s.mem.readNat (base + 8 + 4 * k) 4 = lens[k]?) →
                        let total := occupiedBefore f lens count
                        let rem := L - (8 + 4 * count)
                        checked (.hdr f) s
                          [(rem < total, 1), (s.ctrl.getLsbD 1 = true ∧ total < rem, 2)]
                          (∃ t, exec (.hdr f) s = .next t ∧
                            t = succeeded { s with
                              secCount := t.secCount, secLen := t.secLen, secAddr := t.secAddr } ∧
                            t.secCount.toNat = count ∧
                            ∀ i : Fin 16,
                              (i.val < count → t.secLen[i].toNat = lens.getD i.val 0 ∧
                                t.secAddr[i].toNat
                                  = base + (8 + 4 * count) + occupiedBefore f lens i.val) ∧
                              (count ≤ i.val → t.secLen[i] = 0 ∧ t.secAddr[i] = 0))))))

/-- R156: the parser reads back the lengths a header was written with, under every CTRL: HDR.GEN for 1 to
16 lengths, HDR.NBF and HDR.NPF for 2, the sections occupying exactly the bytes after the table. The magic is
written as the bytes of R56, whose code values are PRESUMED (log 20). -/
def Obligations.HeaderRoundTrip : Prop :=
  ∀ (f : Fmt) (lens : List Nat) (s : State), f ≠ .reserved →
    1 ≤ lens.length → lens.length ≤ 16 → (f ≠ .gen → lens.length = 2) → (∀ l ∈ lens, l < 2 ^ 32) →
    s.srcLen.toNat = 8 + 4 * lens.length + occupiedBefore f lens lens.length →
    s.srcAddr.toNat + s.srcLen.toNat ≤ s.memSize →
      ∃ t, exec (.hdr f) { s with mem := s.mem.writeBytes s.srcAddr.toNat (headerBytes lens) } = .next t ∧
        t.err = false ∧ t.secCount.toNat = lens.length ∧
        ∀ i : Fin 16, i.val < lens.length → t.secLen[i].toNat = lens.getD i.val 0

/-- R174. -/
def Obligations.Pal8Rule : Prop :=
  encode .pal8 = 0x00000010 ∧
    ∀ s : State, checked .pal8 s (pal8Checks s)
      (let written := Written s s.auxAddr.toNat 512 ∧ Written s s.srcAddr.toNat (N s)
       (¬ written → Faults .pal8 s) ∧
        (written → ∃ t, Outputs .pal8 s t (4 * N s) ∧
          ∀ p < N s, ∃ ix w, s.mem.read (s.srcAddr.toNat + p) = some ix ∧
            s.mem.readNat (s.auxAddr.toNat + 2 * ix.toNat) 2 = some w ∧
            t.mem.readNat (s.dstAddr.toNat + 4 * p) 4
              = some (unpack (BitVec.ofNat 16 w) false).toNat))

/-- R175. An index past the words the palette has is opaque black (R171). -/
def Obligations.Pal4Rule : Prop :=
  encode .pal4 = 0x00000011 ∧
    ∀ s : State,
      let occ := pow2ceil s.auxLen.toNat
      let nw := min 15 (occ / 2)
      let nbytes := (N s + 1) / 2
      checked .pal4 s (pal4Checks s nbytes occ)
        (let written := Written s s.auxAddr.toNat (2 * nw) ∧ Written s s.srcAddr.toNat nbytes
         (¬ written → Faults .pal4 s) ∧
          (written → ∃ t, Outputs .pal4 s t (4 * N s) ∧
            ∀ p < N s, ∃ b, s.mem.read (s.srcAddr.toNat + p / 2) = some b ∧
              let idx := if p % 2 = 0 then b.toNat % 16 else b.toNat / 16
              (idx = 0 → t.mem.readNat (s.dstAddr.toNat + 4 * p) 4 = some 0) ∧
              (1 ≤ idx → idx ≤ nw → ∃ w, s.mem.readNat (s.auxAddr.toNat + 2 * (idx - 1)) 2 = some w ∧
                t.mem.readNat (s.dstAddr.toNat + 4 * p) 4
                  = some (unpack (BitVec.ofNat 16 w) false).toNat) ∧
              (nw < idx → t.mem.readNat (s.dstAddr.toNat + 4 * p) 4 = some 0xFF000000)))

/-- R176: whatever the palette holds, an NPF element with index 0 decodes to 0x00000000, and every other NPF
element and every NBF element to a pixel whose alpha byte is 0xFF. -/
def Obligations.PaletteAlpha : Prop :=
  (∀ s t : State, exec .pal8 s = .next t → t.err = false →
    ∀ p < N s, t.mem.read (s.dstAddr.toNat + 4 * p + 3) = some 0xFF) ∧
  (∀ s t : State, exec .pal4 s = .next t → t.err = false →
    ∀ p < N s, ∃ b, s.mem.read (s.srcAddr.toNat + p / 2) = some b ∧
      if (if p % 2 = 0 then b.toNat % 16 else b.toNat / 16) = 0
      then t.mem.readNat (s.dstAddr.toNat + 4 * p) 4 = some 0
      else t.mem.read (s.dstAddr.toNat + 4 * p + 3) = some 0xFF)

/-! ### The host's accesses (10_state.md, 20_memory.md, 70_reset_and_hazards.md) -/

/-- R21, R22: what an idle block's host reads at every offset of the window, and that the read changes
nothing (`reply` is the model's record of the value, log 4). -/
def Obligations.HostReadsRegisterMap : Prop :=
  ∀ (s : State) (rest : List Turn), s.phase = .idle →
    let reads := fun (off : Nat) (v : Word) =>
      step { s with agenda := .host (.readReg off 4) :: rest }
        = .next { s with agenda := rest, reply := some v }
    reads 0x000 (0#30 ++ s.ctrl) ∧ reads 0x004 s.statusWord ∧ reads 0x008 s.cmd ∧
    reads 0x00C s.srcAddr ∧ reads 0x010 s.srcLen ∧ reads 0x014 s.dstAddr ∧ reads 0x018 s.auxAddr ∧
    reads 0x01C s.auxLen ∧ reads 0x020 s.width ∧ reads 0x024 s.height ∧ reads 0x028 s.din ∧
    reads 0x02C s.dout ∧ reads 0x030 s.swidth ∧ reads 0x034 s.outLen ∧ reads 0x038 s.secCount ∧
    reads 0x03C 0 ∧
    ∀ i : Fin 16, reads (0x040 + 4 * i.val) s.secLen[i] ∧ reads (0x080 + 4 * i.val) s.secAddr[i] ∧
      reads (0x0C0 + 4 * i.val) 0

/-- R22, R23, R25: a host write to a RW register of an idle block stores all 32 bits (in CTRL bits 1:0
only), and changes no other register, no byte and not the phase. -/
def Obligations.HostWritesRegister : Prop :=
  ∀ (s : State) (r : Reg) (v : Word) (rest : List Turn), s.phase = .idle → r ∈ writable →
    ∃ t, step { s with agenda := .host (.writeReg r.offset 4 v) :: rest } = .next t ∧
      t.get r = (if r = .ctrl then v &&& 3 else v) ∧ (∀ q, q ≠ r → t.get q = s.get q) ∧
      t.mem = s.mem ∧ t.phase = .idle ∧ t.agenda = rest ∧ t.memExp = s.memExp ∧ t.reply = s.reply ∧
      t.refusedMark = s.refusedMark ∧ t.faultMark = s.faultMark

/-- R22: a host write to a RO register or a reserved offset of an idle block changes no state. -/
def Obligations.HostWriteToReadOnlyIgnored : Prop :=
  ∀ (s : State) (off : Nat) (v : Word) (rest : List Turn), s.phase = .idle → off % 4 = 0 →
    off = 0x004 ∨ (0x02C ≤ off ∧ off < 0x100) →
    step { s with agenda := .host (.writeReg off 4 v) :: rest } = .next { s with agenda := rest }

/-- R234: while a command is pending the host may read STATUS and nothing else, and a register access that
is not an aligned 32-bit one is refused in every phase; the mark `refused` is then set (R40). -/
def Obligations.BusyAndMisformedAccessesRefused : Prop :=
  ∀ (s : State) (a : HostAccess) (rest : List Turn),
    (s.phase = .pending → a ≠ .readReg 0x004 4 →
      (∃ r, step { s with agenda := .host a :: rest } = .refused r) ∧
        (stepMarked { s with agenda := .host a :: rest }).refusedMark = true) ∧
    (s.phase = .pending → step { s with agenda := .host (.readReg 0x004 4) :: rest }
      = .next { s with agenda := rest, reply := some s.statusWord }) ∧
    (∀ off width v, width ≠ 4 ∨ off % 4 ≠ 0 →
      (∃ r, step { s with agenda := .host (.readReg off width) :: rest } = .refused r) ∧
      (∃ r, step { s with agenda := .host (.writeReg off width v) :: rest } = .refused r) ∧
      (stepMarked { s with agenda := .host (.readReg off width) :: rest }).refusedMark = true ∧
      (stepMarked { s with agenda := .host (.writeReg off width v) :: rest }).refusedMark = true)

/-- R52, R60: a host write of 1, 2 or 4 bytes to `MEM` of an idle block, at any address, stores the low
bytes of the value little-endian and nothing else; reading as many bytes back gives them. -/
def Obligations.HostMemoryReadAfterWrite : Prop :=
  ∀ (s : State) (a n : Nat) (v : Word) (rest : List Turn), s.phase = .idle → n = 1 ∨ n = 2 ∨ n = 4 →
    InMem s a n →
    ∃ t, step { s with agenda := .host (.writeMem a n v) :: .host (.readMem a n) :: rest } = .next t ∧
      t = { s with mem := t.mem, agenda := .host (.readMem a n) :: rest } ∧ SameOutside s t a n ∧
      (∀ k < n, t.mem.read (a + k) = some (v.extractLsb' (8 * k) 8)) ∧
      step t = .next { t with agenda := rest, reply := some (BitVec.ofNat 32 (v.toNat % 2 ^ (8 * n))) }

/-- R41, R230, R231, R232: the reset input, asserted in any phase, leaves CTRL = 3, every other register 0,
the block idle and both marks clear; a pending command is abandoned and `MEM` does not change. -/
def Obligations.ResetInputTakesResetState : Prop :=
  ∀ (s : State) (rest : List Turn),
    ∃ t, step { s with agenda := .reset :: rest } = .next t ∧
      (∀ r, t.get r = if r = .ctrl then 3 else 0) ∧ t.phase = .idle ∧ t.refusedMark = false ∧
      t.faultMark = false ∧ t.mem = s.mem ∧ t.memExp = s.memExp ∧ t.agenda = rest ∧ t.reply = s.reply

/-- R41, R231, R68: the state the machine starts in. -/
def Obligations.ResetStateValues : Prop :=
  (∀ r, State.reset.get r = if r = .ctrl then 3 else 0) ∧ State.reset.phase = .idle ∧
    State.reset.refusedMark = false ∧ State.reset.faultMark = false ∧
    ∀ a, State.reset.mem.read a = none

/-- R68: a byte stays written once the host or a command has written it, until power is removed; a warm
reset keeps it. -/
def Obligations.BytesStayWritten : Prop :=
  ∀ (s t : State) (a : Nat), step s = .next t → s.nextTurn ≠ .power → (s.mem.read a).isSome = true →
    (t.mem.read a).isSome = true

/-- R40, R41, R214: a marked step sets `fault` exactly when the step faults and `refused` exactly when it is
refused, and never clears a mark, except by the reset input or power (logs 6, 15, 21). -/
def Obligations.MarksSetAndKept : Prop :=
  ∀ s : State, s.nextTurn ≠ .reset → s.nextTurn ≠ .power →
    ((stepMarked s).faultMark = true ↔ s.faultMark = true ∨ ∃ r, step s = .fault r) ∧
    ((stepMarked s).refusedMark = true ↔ s.refusedMark = true ∨ ∃ r, step s = .refused r)

/-- R7: MEM_SIZE is a power of two from 2^12 to 2^31, and no step changes it. -/
def Obligations.MemSizeLegalAndFixed : Prop :=
  (∀ s : State, ∃ k, s.memSize = 2 ^ k ∧ 12 ≤ k ∧ k ≤ 31) ∧
    ∀ s t : State, step s = .next t → t.memSize = s.memSize

/-! ### The invariant -/

/-- The invariant holds in the reset state. -/
def Obligations.InvariantHoldsAtReset : Prop := Invariant State.reset

/-- R26, R34, R36 to R38, R50: every step of every agent keeps the invariant: `MEM` canonical and inside
MEM_SIZE, STATUS coherent, SWIDTH 0 or a power of two, OUT_LEN and the section table in their ranges. -/
def Obligations.EveryStepKeepsTheInvariant : Prop :=
  ∀ s t : State, Invariant s → step s = .next t → Invariant t
end

