-- ==== Sys2Proof/Laws/Memory.lean ====
section
/-! SUPPORT. What the operations over `MEM` do: a byte read after a write, the canonical form kept, range
reads, little-endian naturals, and the loop of a buffer command. -/

namespace Sys2Proof.Machine

theorem Memory.read_append (m₁ m₂ : Memory) (a : Nat) :
    Memory.read (m₁ ++ m₂) a = (m₁.read a).or (m₂.read a) := by
  induction m₁ with
  | nil => rfl
  | cons x m ih =>
    obtain ⟨b, v⟩ := x
    by_cases h : a = b <;> simp [Memory.read, h, ih]

theorem Memory.read_filter (p : Nat → Bool) (m : Memory) (a : Nat) :
    Memory.read (m.filter fun x => p x.1) a = if p a then m.read a else none := by
  induction m with
  | nil => simp [Memory.read]
  | cons x m ih =>
    obtain ⟨b, v⟩ := x
    by_cases hb : p b = true <;> by_cases ha : a = b
    · subst ha; simp [Memory.read, hb]
    · simp [Memory.read, hb, ha, ih]
    · subst ha; simp [hb, ih]
    · simp [Memory.read, hb, ha, ih]

theorem cellsAt_read (bs : List Byte) (b a : Nat) :
    Memory.read (cellsAt b bs) a = if b ≤ a then bs[a - b]? else none := by
  induction bs generalizing b with
  | nil => simp [cellsAt, Memory.read]
  | cons v bs ih =>
    rw [cellsAt, Memory.read, ih]
    rcases Nat.lt_trichotomy a b with h | h | h
    · simp [show a ≠ b by omega, show ¬ b + 1 ≤ a by omega, show ¬ b ≤ a by omega]
    · simp [h]
    · simp [show a ≠ b by omega, show b + 1 ≤ a by omega, show b ≤ a by omega,
        show a - b = (a - (b + 1)) + 1 by omega]

/-- What a byte reads as after a write (R9). -/
theorem Memory.read_writeBytes (m : Memory) (a : Nat) (bs : List Byte) (x : Nat) :
    (m.writeBytes a bs).read x
      = if a ≤ x ∧ x < a + bs.length then bs[x - a]? else m.read x := by
  rw [Memory.writeBytes, Memory.read_append, Memory.read_append, cellsAt_read,
    Memory.read_filter (fun y => decide (y < a)), Memory.read_filter (fun y => decide (a + bs.length ≤ y))]
  by_cases h₁ : a ≤ x <;> by_cases h₂ : x < a + bs.length
  · have : x - a < bs.length := by omega
    simp [h₁, h₂, show ¬ x < a by omega, this]
  · have : bs[x - a]? = none := by simp; omega
    simp [h₁, h₂, show ¬ x < a by omega, this, show a + bs.length ≤ x by omega]
  · cases h : m.read x <;> simp [h₁, h₂, show x < a by omega]
  · omega

theorem cellsAt_mem {bs : List Byte} {b : Nat} {c : Host.Cell} (h : c ∈ cellsAt b bs) :
    b ≤ c.1 ∧ c.1 < b + bs.length := by
  induction bs generalizing b with
  | nil => simp [cellsAt] at h
  | cons v bs ih =>
    rcases List.mem_cons.1 h with rfl | h
    · simp
    · have := ih h; simp; omega

theorem cellsAt_sorted (bs : List Byte) (b : Nat) :
    (cellsAt b bs).Pairwise (fun x y => x.1 < y.1) := by
  induction bs generalizing b with
  | nil => exact List.Pairwise.nil
  | cons v bs ih => exact List.Pairwise.cons (fun c hc => (cellsAt_mem hc).1) (ih _)

theorem Memory.wf_iff (size : Nat) (m : Memory) :
    m.wf size = true ↔ m.Pairwise (fun x y => x.1 < y.1) ∧ ∀ c ∈ m, c.1 < size := by
  simp [Memory.wf]

theorem Memory.wf_nil (size : Nat) : Memory.wf size [] = true := by simp [Memory.wf]

/-- A write inside `MEM` keeps the canonical form. -/
theorem Memory.wf_writeBytes {size : Nat} {m : Memory} (h : m.wf size = true) {a : Nat} {bs : List Byte}
    (hin : bs = [] ∨ a + bs.length ≤ size) : (m.writeBytes a bs).wf size = true := by
  rw [Memory.wf_iff] at h ⊢
  obtain ⟨hs, hb⟩ := h
  constructor
  · refine List.pairwise_append.2 ⟨List.pairwise_append.2 ⟨hs.filter _, cellsAt_sorted _ _, ?_⟩, hs.filter _, ?_⟩
    · intro x hx y hy
      have := cellsAt_mem hy
      simp at hx; omega
    · intro x hx y hy
      simp at hy
      rcases List.mem_append.1 hx with hx | hx
      · simp at hx; omega
      · have := cellsAt_mem hx; omega
  · intro c hc
    simp only [Memory.writeBytes, List.mem_append, List.mem_filter] at hc
    rcases hc with (hc | hc) | hc
    · exact hb _ hc.1
    · have := cellsAt_mem hc
      rcases hin with rfl | hin
      · simp at this; omega
      · omega
    · exact hb _ hc.1

/-- What a range read answers: the bytes that stand there, all of them written. -/
theorem Memory.readBytes_eq_some {m : Memory} {n a : Nat} {bs : List Byte} :
    m.readBytes a n = some bs ↔ bs.length = n ∧ ∀ k < n, m.read (a + k) = bs[k]? := by
  induction n generalizing a bs with
  | zero => simp [Memory.readBytes, List.length_eq_zero_iff, eq_comm (a := ([] : List Byte))]
  | succ n ih =>
    rw [Memory.readBytes]
    cases hr : m.read a with
    | none =>
      simp only [reduceCtorEq, false_iff, not_and]
      intro hl hk
      have h0 := hk 0 (by omega)
      rw [Nat.add_zero, hr] at h0
      cases bs <;> simp at hl h0
    | some b =>
      simp only [Option.map_eq_some_iff, ih]
      constructor
      · rintro ⟨l, ⟨hl, hk⟩, rfl⟩
        refine ⟨by simp [hl], fun k hkn => ?_⟩
        cases k with
        | zero => simpa using hr
        | succ k => simpa [Nat.add_assoc, Nat.add_comm 1 k] using hk k (by omega)
      · rintro ⟨hl, hk⟩
        cases bs with
        | nil => simp at hl
        | cons c l =>
          have h0 := hk 0 (by omega)
          rw [Nat.add_zero, hr] at h0
          refine ⟨l, ⟨by simpa using hl, fun k hkn => ?_⟩, by simpa using h0⟩
          simpa [Nat.add_assoc, Nat.add_comm 1 k] using hk (k + 1) (by omega)

/-- A range read completes exactly when every byte of the range is written (R68). -/
theorem Memory.readBytes_isSome {m : Memory} {n a : Nat} :
    (m.readBytes a n).isSome = true ↔ ∀ k < n, (m.read (a + k)).isSome = true := by
  induction n generalizing a with
  | zero => simp [Memory.readBytes]
  | succ n ih =>
    rw [Memory.readBytes, Nat.forall_lt_succ_left]
    cases hr : m.read a with
    | none => simp
    | some b => simp [ih, Nat.add_assoc, Nat.add_comm 1]

/-- A range read depends only on the bytes of its range. -/
theorem Memory.readBytes_congr {m m' : Memory} {n a : Nat}
    (h : ∀ k < n, m.read (a + k) = m'.read (a + k)) : m.readBytes a n = m'.readBytes a n := by
  induction n generalizing a with
  | zero => rfl
  | succ n ih =>
    have h0 : m.read a = m'.read a := by simpa using h 0 (by omega)
    have hs : m.readBytes (a + 1) n = m'.readBytes (a + 1) n :=
      ih fun k hk => by simpa [Nat.add_assoc, Nat.add_comm 1 k] using h (k + 1) (by omega)
    rw [Memory.readBytes, Memory.readBytes, h0, hs]

@[simp] theorem leBytes_length (n v : Nat) : (leBytes n v).length = n := by
  induction n generalizing v with
  | zero => rfl
  | succ n ih => simp [leBytes, ih]

/-- Reading back the little-endian bytes of `v` gives `v`, cut to their count (R52). -/
theorem leNat_leBytes (n v : Nat) : leNat (leBytes n v) = v % 256 ^ n := by
  induction n generalizing v with
  | zero => simp [leBytes, leNat, Nat.mod_one]
  | succ n ih =>
    rw [leBytes, leNat, ih, Nat.pow_succ', Nat.mod_mul]
    simp

theorem leNat_lt (bs : List Byte) : leNat bs < 256 ^ bs.length := by
  induction bs with
  | nil => simp [leNat]
  | cons b bs ih =>
    have := b.isLt
    simp only [leNat, List.length_cons, Nat.pow_succ]
    omega

/-- The little-endian bytes of what was read are the bytes read (R52). -/
theorem leBytes_leNat (bs : List Byte) : leBytes bs.length (leNat bs) = bs := by
  induction bs with
  | nil => rfl
  | cons b bs ih =>
    have := b.isLt
    rw [List.length_cons, leBytes, leNat,
      show (b.toNat + 256 * leNat bs) / 256 = leNat bs by omega, ih]
    congr 1
    apply BitVec.eq_of_toNat_eq
    simp
    omega

theorem gatherFrom_eq_some {f : Nat → Option (List Byte)} {n k : Nat} {bs : List Byte} :
    gatherFrom f k n = some bs
      ↔ ∃ xs : List (List Byte), xs.length = n ∧ (∀ p < n, f (k + p) = xs[p]?) ∧ bs = xs.flatten := by
  induction n generalizing k bs with
  | zero => simp [gatherFrom, List.length_eq_zero_iff, eq_comm (a := ([] : List Byte))]
  | succ n ih =>
    rw [gatherFrom]
    cases hf : f k with
    | none =>
      simp only [reduceCtorEq, false_iff, not_exists, not_and]
      intro xs hl hp
      have h0 := hp 0 (by omega)
      rw [Nat.add_zero, hf] at h0
      cases xs <;> simp at hl h0
    | some x =>
      simp only [Option.map_eq_some_iff, ih]
      constructor
      · rintro ⟨l, ⟨xs, hl, hp, rfl⟩, rfl⟩
        refine ⟨x :: xs, by simp [hl], fun p hpn => ?_, by simp⟩
        cases p with
        | zero => simpa using hf
        | succ p => simpa [Nat.add_assoc, Nat.add_comm 1 p] using hp p (by omega)
      · rintro ⟨xs, hl, hp, rfl⟩
        cases xs with
        | nil => simp at hl
        | cons y xs =>
          have h0 := hp 0 (by omega)
          rw [Nat.add_zero, hf] at h0
          refine ⟨xs.flatten, ⟨xs, by simpa using hl, fun p hpn => ?_, rfl⟩, by simp_all⟩
          simpa [Nat.add_assoc, Nat.add_comm 1 p] using hp (p + 1) (by omega)

/-- What the loop of a buffer command answers: its elements one after another (R62). -/
theorem gather_eq_some {f : Nat → Option (List Byte)} {n : Nat} {bs : List Byte} :
    gather n f = some bs
      ↔ ∃ xs : List (List Byte), xs.length = n ∧ (∀ p < n, f p = xs[p]?) ∧ bs = xs.flatten := by
  simpa [gather] using gatherFrom_eq_some (f := f) (k := 0)

theorem flatten_length {e : Nat} {xs : List (List Byte)} (h : ∀ x ∈ xs, x.length = e) :
    xs.flatten.length = e * xs.length := by
  induction xs with
  | nil => simp
  | cons x xs ih =>
    have hx := h x (by simp)
    have := ih fun y hy => h y (by simp [hy])
    simp [hx, this, Nat.mul_add, Nat.add_comm]

theorem flatten_getElem? {e : Nat} {xs : List (List Byte)} (h : ∀ x ∈ xs, x.length = e)
    {p j : Nat} (hj : j < e) : xs.flatten[e * p + j]? = xs[p]? >>= (·[j]?) := by
  induction xs generalizing p with
  | nil => simp
  | cons x xs ih =>
    have hx := h x (by simp)
    have hxs := fun q => ih (fun y hy => h y (by simp [hy])) (p := q)
    cases p with
    | zero => simp [List.getElem?_append, hx, hj]
    | succ p =>
      have : e * (p + 1) + j - e = e * p + j := by rw [Nat.mul_add]; omega
      rw [List.flatten_cons, List.getElem?_append_right (by rw [hx, Nat.mul_add]; omega), hx, this, hxs]
      simp

/-- The loop completes exactly when every element's bytes are written. -/
theorem gather_isSome {f : Nat → Option (List Byte)} {n : Nat} :
    (gather n f).isSome = true ↔ ∀ p < n, (f p).isSome = true := by
  suffices h : ∀ k, (gatherFrom f k n).isSome = true ↔ ∀ p < n, (f (k + p)).isSome = true by
    simpa [gather] using h 0
  induction n with
  | zero => simp [gatherFrom]
  | succ n ih =>
    intro k
    rw [gatherFrom, Nat.forall_lt_succ_left]
    cases hf : f k with
    | none => simp
    | some b => simp [ih, Nat.add_assoc, Nat.add_comm 1]

end Sys2Proof.Machine
end

