-- ==== Sys2Proof/Laws/Ops.lean ====
section
/-! SUPPORT. What `pow2ceil`, the size arithmetic, reads as naturals and the shared life of a command do. -/

namespace Sys2Proof.Machine

/-! ### `pow2ceil` -/

@[simp] theorem pow2ceil_zero : pow2ceil 0 = 0 := rfl

/-- `pow2ceil n` is a power of two for `n ≥ 1`, with `n ≤ pow2ceil n < 2 n` (R10). -/
theorem pow2ceil_bounds {n : Nat} (h : n ≠ 0) :
    ∃ k, pow2ceil n = 2 ^ k ∧ n ≤ 2 ^ k ∧ 2 ^ k < 2 * n := by
  have h₁ := Nat.log2_self_le h
  have h₂ := Nat.lt_log2_self (n := n)
  unfold pow2ceil
  rw [if_neg h]
  split
  · next he => exact ⟨n.log2, he.symm, by omega, by omega⟩
  · exact ⟨n.log2 + 1, rfl, by omega, by rw [Nat.pow_succ]; omega⟩

theorem le_pow2ceil (n : Nat) : n ≤ pow2ceil n := by
  by_cases h : n = 0
  · simp [h]
  · obtain ⟨k, hk, hn, -⟩ := pow2ceil_bounds h
    omega

/-- No smaller power of two is at least `n` (R10). -/
theorem pow2ceil_least {n k : Nat} (h : n ≤ 2 ^ k) : pow2ceil n ≤ 2 ^ k := by
  by_cases h0 : n = 0
  · simp [h0]
  · obtain ⟨j, hj, -, hlt⟩ := pow2ceil_bounds h0
    rw [hj]
    have : 2 ^ j < 2 ^ (k + 1) := by rw [Nat.pow_succ]; omega
    exact Nat.pow_le_pow_right (by omega) (by have := (Nat.pow_lt_pow_iff_right (by omega)).1 this; omega)

@[simp] theorem pow2ceil_eq_zero {n : Nat} : pow2ceil n = 0 ↔ n = 0 :=
  ⟨fun h => by have := le_pow2ceil n; omega, fun h => by simp [h]⟩

/-! ### MEM_SIZE, `InMem`, `Disjoint` -/

theorem State.memSize_le (s : State) : s.memSize ≤ 2 ^ 31 :=
  Nat.pow_le_pow_right (by omega) (by have := s.memExp.isLt; simp only [Config.memSizes, Config.memExpMin] at *; omega)

@[simp] theorem State.inMem_iff (s : State) (a n : Nat) :
    s.inMem a n = true ↔ n = 0 ∨ a + n ≤ s.memSize := by simp [State.inMem]

@[simp] theorem disjoint_iff (a n b m : Nat) :
    disjoint a n b m = true ↔ n = 0 ∨ m = 0 ∨ a + n ≤ b ∨ b + m ≤ a := by simp [disjoint]

theorem State.memSize_congr {s t : State} (h : t.memExp = s.memExp) : t.memSize = s.memSize := by
  simp [State.memSize, h]

/-! ### Reads as naturals -/

theorem Memory.readNat_eq_some {m : Memory} {a n v : Nat} :
    m.readNat a n = some v ↔ ∃ bs, m.readBytes a n = some bs ∧ v = leNat bs := by
  simp [Memory.readNat, eq_comm]

theorem Memory.readNat_lt {m : Memory} {a n v : Nat} (h : m.readNat a n = some v) : v < 256 ^ n := by
  obtain ⟨bs, hb, rfl⟩ := Memory.readNat_eq_some.1 h
  have := leNat_lt bs
  rwa [(Memory.readBytes_eq_some.1 hb).1] at this

theorem Memory.readNat_congr {m m' : Memory} {a n : Nat}
    (h : ∀ k < n, m.read (a + k) = m'.read (a + k)) : m.readNat a n = m'.readNat a n := by
  rw [Memory.readNat, Memory.readNat, Memory.readBytes_congr h]

theorem Memory.readNat_isSome {m : Memory} {a n : Nat} :
    (m.readNat a n).isSome = true ↔ ∀ k < n, (m.read (a + k)).isSome = true := by
  simp [Memory.readNat, Memory.readBytes_isSome]

/-- Reading back a range of bytes just written. -/
theorem Memory.readBytes_writeBytes {m : Memory} {a : Nat} {bs : List Byte} {k n : Nat}
    (h : k + n ≤ bs.length) :
    (m.writeBytes a bs).readBytes (a + k) n = some ((bs.drop k).take n) := by
  refine Memory.readBytes_eq_some.2 ⟨by simp; omega, fun j hj => ?_⟩
  rw [Memory.read_writeBytes, if_pos (by omega), List.getElem?_take, if_pos hj, List.getElem?_drop]
  congr 1
  omega

/-! ### The life of a command -/

theorem load_eq_done {α : Type} {v : Option α} {k : α → Verdict} {t : State} :
    load v k = .done t ↔ ∃ x, v = some x ∧ k x = .done t := by
  cases v <;> simp [load]

theorem load_eq_stopped {α : Type} {v : Option α} {k : α → Verdict} {r : Fault} :
    load v k = .stopped r ↔ (v = none ∧ r = .unwrittenByte) ∨ ∃ x, v = some x ∧ k x = .stopped r := by
  cases v <;> simp [load, eq_comm]

/-- The two ways a command ends in a next state (R192). -/
theorem finish_next {s t : State} {v : Verdict} (h : finish s v = .next t) :
    (∃ u, v = .done u ∧ t = u.succeed) ∨ ∃ e, v = .raised e ∧ t = s.fail e := by
  cases v with
  | done u => exact .inl ⟨u, rfl, by simpa [finish, eq_comm] using h⟩
  | raised e => exact .inr ⟨e, rfl, by simpa [finish, State.raise, eq_comm] using h⟩
  | stopped r => simp [finish] at h

theorem finish_fault {s : State} {v : Verdict} {r : Fault} :
    finish s v = .fault r ↔ v = .stopped r := by
  cases v <;> simp [finish, State.raise]

theorem finish_ne_refused {s : State} {v : Verdict} {r : Refusal} : finish s v ≠ .refused r := by
  cases v <;> simp [finish, State.raise]

/-- What the shared rule of CONV, PAD and CROP does when it succeeds (R110, R134, R135). -/
theorem copyRule_done {s t : State} {need n out : Nat} {elem : Nat → Option (List Byte)} :
    copyRule s need n out elem = .done t
      ↔ s.w ≤ maxWidth ∧ s.srcInMem = true ∧ need ≤ s.srcLen.toNat ∧ s.inMem s.dst out = true
        ∧ disjoint s.dst out s.src need = true
        ∧ ∃ bytes, gather n elem = some bytes ∧ t = s.commitOutput out bytes := by
  unfold copyRule
  split_ifs with h₁ h₂ h₃ h₄ h₅
  · simp; omega
  · simp only [false_iff]; intro h; simp_all
  · simp; omega
  · simp only [false_iff]; intro h; simp_all
  · simp only [false_iff]; intro h; simp_all
  · rw [load_eq_done]
    simp only [Bool.not_eq_eq_eq_not, Bool.not_true, Bool.not_eq_false] at h₂ h₄ h₅
    simp only [h₂, h₄, h₅, show s.w ≤ maxWidth by omega, show need ≤ s.srcLen.toNat by omega, true_and,
      Verdict.done.injEq, eq_comm]

/-- The shared rule faults only on an unwritten byte. -/
theorem copyRule_stopped {s : State} {need n out : Nat} {elem : Nat → Option (List Byte)} {r : Fault}
    (h : copyRule s need n out elem = .stopped r) : r = .unwrittenByte ∧ gather n elem = none := by
  unfold copyRule at h
  split_ifs at h
  rw [load_eq_stopped] at h
  rcases h with ⟨h, rfl⟩ | ⟨x, -, hx⟩
  · exact ⟨rfl, h⟩
  · cases hx

end Sys2Proof.Machine
end

