-- ==== Sys2Proof/Laws/State.lean ====
section
/-! SUPPORT. What each update of State leaves in each field: one lemma per field per update, so that no
later proof unfolds a record update. -/

namespace Sys2Proof.Machine

/-! ### `State.succeed` -/

@[simp] theorem State.succeed_ctrl (s : State) : s.succeed.ctrl = s.ctrl := rfl
@[simp] theorem State.succeed_phase (s : State) : s.succeed.phase = .idle := rfl
@[simp] theorem State.succeed_done (s : State) : s.succeed.done = true := rfl
@[simp] theorem State.succeed_err (s : State) : s.succeed.err = false := rfl
@[simp] theorem State.succeed_errCode (s : State) : s.succeed.errCode = 0 := rfl
@[simp] theorem State.succeed_cmd (s : State) : s.succeed.cmd = s.cmd := rfl
@[simp] theorem State.succeed_srcAddr (s : State) : s.succeed.srcAddr = s.srcAddr := rfl
@[simp] theorem State.succeed_srcLen (s : State) : s.succeed.srcLen = s.srcLen := rfl
@[simp] theorem State.succeed_dstAddr (s : State) : s.succeed.dstAddr = s.dstAddr := rfl
@[simp] theorem State.succeed_auxAddr (s : State) : s.succeed.auxAddr = s.auxAddr := rfl
@[simp] theorem State.succeed_auxLen (s : State) : s.succeed.auxLen = s.auxLen := rfl
@[simp] theorem State.succeed_width (s : State) : s.succeed.width = s.width := rfl
@[simp] theorem State.succeed_height (s : State) : s.succeed.height = s.height := rfl
@[simp] theorem State.succeed_din (s : State) : s.succeed.din = s.din := rfl
@[simp] theorem State.succeed_dout (s : State) : s.succeed.dout = s.dout := rfl
@[simp] theorem State.succeed_swidth (s : State) : s.succeed.swidth = s.swidth := rfl
@[simp] theorem State.succeed_outLen (s : State) : s.succeed.outLen = s.outLen := rfl
@[simp] theorem State.succeed_secCount (s : State) : s.succeed.secCount = s.secCount := rfl
@[simp] theorem State.succeed_secLen (s : State) : s.succeed.secLen = s.secLen := rfl
@[simp] theorem State.succeed_secAddr (s : State) : s.succeed.secAddr = s.secAddr := rfl
@[simp] theorem State.succeed_mem (s : State) : s.succeed.mem = s.mem := rfl
@[simp] theorem State.succeed_refusedMark (s : State) : s.succeed.refusedMark = s.refusedMark := rfl
@[simp] theorem State.succeed_faultMark (s : State) : s.succeed.faultMark = s.faultMark := rfl
@[simp] theorem State.succeed_memExp (s : State) : s.succeed.memExp = s.memExp := rfl
@[simp] theorem State.succeed_agenda (s : State) : s.succeed.agenda = s.agenda := rfl
@[simp] theorem State.succeed_reply (s : State) : s.succeed.reply = s.reply := rfl

/-! ### `State.fail` -/

@[simp] theorem State.fail_ctrl (s : State) (e : ErrorCode) : (s.fail e).ctrl = s.ctrl := rfl
@[simp] theorem State.fail_phase (s : State) (e : ErrorCode) : (s.fail e).phase = .idle := rfl
@[simp] theorem State.fail_done (s : State) (e : ErrorCode) : (s.fail e).done = true := rfl
@[simp] theorem State.fail_err (s : State) (e : ErrorCode) : (s.fail e).err = true := rfl
@[simp] theorem State.fail_errCode (s : State) (e : ErrorCode) : (s.fail e).errCode = e.code := rfl
@[simp] theorem State.fail_cmd (s : State) (e : ErrorCode) : (s.fail e).cmd = s.cmd := rfl
@[simp] theorem State.fail_srcAddr (s : State) (e : ErrorCode) : (s.fail e).srcAddr = s.srcAddr := rfl
@[simp] theorem State.fail_srcLen (s : State) (e : ErrorCode) : (s.fail e).srcLen = s.srcLen := rfl
@[simp] theorem State.fail_dstAddr (s : State) (e : ErrorCode) : (s.fail e).dstAddr = s.dstAddr := rfl
@[simp] theorem State.fail_auxAddr (s : State) (e : ErrorCode) : (s.fail e).auxAddr = s.auxAddr := rfl
@[simp] theorem State.fail_auxLen (s : State) (e : ErrorCode) : (s.fail e).auxLen = s.auxLen := rfl
@[simp] theorem State.fail_width (s : State) (e : ErrorCode) : (s.fail e).width = s.width := rfl
@[simp] theorem State.fail_height (s : State) (e : ErrorCode) : (s.fail e).height = s.height := rfl
@[simp] theorem State.fail_din (s : State) (e : ErrorCode) : (s.fail e).din = s.din := rfl
@[simp] theorem State.fail_dout (s : State) (e : ErrorCode) : (s.fail e).dout = s.dout := rfl
@[simp] theorem State.fail_swidth (s : State) (e : ErrorCode) : (s.fail e).swidth = s.swidth := rfl
@[simp] theorem State.fail_outLen (s : State) (e : ErrorCode) : (s.fail e).outLen = s.outLen := rfl
@[simp] theorem State.fail_secCount (s : State) (e : ErrorCode) : (s.fail e).secCount = s.secCount := rfl
@[simp] theorem State.fail_secLen (s : State) (e : ErrorCode) : (s.fail e).secLen = s.secLen := rfl
@[simp] theorem State.fail_secAddr (s : State) (e : ErrorCode) : (s.fail e).secAddr = s.secAddr := rfl
@[simp] theorem State.fail_mem (s : State) (e : ErrorCode) : (s.fail e).mem = s.mem := rfl
@[simp] theorem State.fail_refusedMark (s : State) (e : ErrorCode) :
    (s.fail e).refusedMark = s.refusedMark := rfl
@[simp] theorem State.fail_faultMark (s : State) (e : ErrorCode) : (s.fail e).faultMark = s.faultMark := rfl
@[simp] theorem State.fail_memExp (s : State) (e : ErrorCode) : (s.fail e).memExp = s.memExp := rfl
@[simp] theorem State.fail_agenda (s : State) (e : ErrorCode) : (s.fail e).agenda = s.agenda := rfl
@[simp] theorem State.fail_reply (s : State) (e : ErrorCode) : (s.fail e).reply = s.reply := rfl

/-! ### `State.issue` -/

@[simp] theorem State.issue_ctrl (s : State) (w : Word) : (s.issue w).ctrl = s.ctrl := rfl
@[simp] theorem State.issue_phase (s : State) (w : Word) : (s.issue w).phase = .pending := rfl
@[simp] theorem State.issue_done (s : State) (w : Word) : (s.issue w).done = false := rfl
@[simp] theorem State.issue_err (s : State) (w : Word) : (s.issue w).err = false := rfl
@[simp] theorem State.issue_errCode (s : State) (w : Word) : (s.issue w).errCode = 0 := rfl
@[simp] theorem State.issue_cmd (s : State) (w : Word) : (s.issue w).cmd = w := rfl
@[simp] theorem State.issue_srcAddr (s : State) (w : Word) : (s.issue w).srcAddr = s.srcAddr := rfl
@[simp] theorem State.issue_srcLen (s : State) (w : Word) : (s.issue w).srcLen = s.srcLen := rfl
@[simp] theorem State.issue_dstAddr (s : State) (w : Word) : (s.issue w).dstAddr = s.dstAddr := rfl
@[simp] theorem State.issue_auxAddr (s : State) (w : Word) : (s.issue w).auxAddr = s.auxAddr := rfl
@[simp] theorem State.issue_auxLen (s : State) (w : Word) : (s.issue w).auxLen = s.auxLen := rfl
@[simp] theorem State.issue_width (s : State) (w : Word) : (s.issue w).width = s.width := rfl
@[simp] theorem State.issue_height (s : State) (w : Word) : (s.issue w).height = s.height := rfl
@[simp] theorem State.issue_din (s : State) (w : Word) : (s.issue w).din = s.din := rfl
@[simp] theorem State.issue_dout (s : State) (w : Word) : (s.issue w).dout = s.dout := rfl
@[simp] theorem State.issue_swidth (s : State) (w : Word) : (s.issue w).swidth = s.swidth := rfl
@[simp] theorem State.issue_outLen (s : State) (w : Word) : (s.issue w).outLen = s.outLen := rfl
@[simp] theorem State.issue_secCount (s : State) (w : Word) : (s.issue w).secCount = s.secCount := rfl
@[simp] theorem State.issue_secLen (s : State) (w : Word) : (s.issue w).secLen = s.secLen := rfl
@[simp] theorem State.issue_secAddr (s : State) (w : Word) : (s.issue w).secAddr = s.secAddr := rfl
@[simp] theorem State.issue_mem (s : State) (w : Word) : (s.issue w).mem = s.mem := rfl
@[simp] theorem State.issue_refusedMark (s : State) (w : Word) :
    (s.issue w).refusedMark = s.refusedMark := rfl
@[simp] theorem State.issue_faultMark (s : State) (w : Word) : (s.issue w).faultMark = s.faultMark := rfl
@[simp] theorem State.issue_memExp (s : State) (w : Word) : (s.issue w).memExp = s.memExp := rfl
@[simp] theorem State.issue_agenda (s : State) (w : Word) : (s.issue w).agenda = s.agenda := rfl
@[simp] theorem State.issue_reply (s : State) (w : Word) : (s.issue w).reply = s.reply := rfl

/-! ### `State.takeTurn` -/

@[simp] theorem State.takeTurn_ctrl (s : State) : s.takeTurn.ctrl = s.ctrl := rfl
@[simp] theorem State.takeTurn_phase (s : State) : s.takeTurn.phase = s.phase := rfl
@[simp] theorem State.takeTurn_done (s : State) : s.takeTurn.done = s.done := rfl
@[simp] theorem State.takeTurn_err (s : State) : s.takeTurn.err = s.err := rfl
@[simp] theorem State.takeTurn_errCode (s : State) : s.takeTurn.errCode = s.errCode := rfl
@[simp] theorem State.takeTurn_cmd (s : State) : s.takeTurn.cmd = s.cmd := rfl
@[simp] theorem State.takeTurn_srcAddr (s : State) : s.takeTurn.srcAddr = s.srcAddr := rfl
@[simp] theorem State.takeTurn_srcLen (s : State) : s.takeTurn.srcLen = s.srcLen := rfl
@[simp] theorem State.takeTurn_dstAddr (s : State) : s.takeTurn.dstAddr = s.dstAddr := rfl
@[simp] theorem State.takeTurn_auxAddr (s : State) : s.takeTurn.auxAddr = s.auxAddr := rfl
@[simp] theorem State.takeTurn_auxLen (s : State) : s.takeTurn.auxLen = s.auxLen := rfl
@[simp] theorem State.takeTurn_width (s : State) : s.takeTurn.width = s.width := rfl
@[simp] theorem State.takeTurn_height (s : State) : s.takeTurn.height = s.height := rfl
@[simp] theorem State.takeTurn_din (s : State) : s.takeTurn.din = s.din := rfl
@[simp] theorem State.takeTurn_dout (s : State) : s.takeTurn.dout = s.dout := rfl
@[simp] theorem State.takeTurn_swidth (s : State) : s.takeTurn.swidth = s.swidth := rfl
@[simp] theorem State.takeTurn_outLen (s : State) : s.takeTurn.outLen = s.outLen := rfl
@[simp] theorem State.takeTurn_secCount (s : State) : s.takeTurn.secCount = s.secCount := rfl
@[simp] theorem State.takeTurn_secLen (s : State) : s.takeTurn.secLen = s.secLen := rfl
@[simp] theorem State.takeTurn_secAddr (s : State) : s.takeTurn.secAddr = s.secAddr := rfl
@[simp] theorem State.takeTurn_mem (s : State) : s.takeTurn.mem = s.mem := rfl
@[simp] theorem State.takeTurn_refusedMark (s : State) : s.takeTurn.refusedMark = s.refusedMark := rfl
@[simp] theorem State.takeTurn_faultMark (s : State) : s.takeTurn.faultMark = s.faultMark := rfl
@[simp] theorem State.takeTurn_memExp (s : State) : s.takeTurn.memExp = s.memExp := rfl
@[simp] theorem State.takeTurn_agenda (s : State) : s.takeTurn.agenda = s.agenda.tail := rfl
@[simp] theorem State.takeTurn_reply (s : State) : s.takeTurn.reply = s.reply := rfl

/-! ### `State.commitOutput` -/

@[simp] theorem State.commitOutput_ctrl (s : State) (n : Nat) (bs : List Byte) :
    (s.commitOutput n bs).ctrl = s.ctrl := rfl
@[simp] theorem State.commitOutput_phase (s : State) (n : Nat) (bs : List Byte) :
    (s.commitOutput n bs).phase = s.phase := rfl
@[simp] theorem State.commitOutput_done (s : State) (n : Nat) (bs : List Byte) :
    (s.commitOutput n bs).done = s.done := rfl
@[simp] theorem State.commitOutput_err (s : State) (n : Nat) (bs : List Byte) :
    (s.commitOutput n bs).err = s.err := rfl
@[simp] theorem State.commitOutput_errCode (s : State) (n : Nat) (bs : List Byte) :
    (s.commitOutput n bs).errCode = s.errCode := rfl
@[simp] theorem State.commitOutput_cmd (s : State) (n : Nat) (bs : List Byte) :
    (s.commitOutput n bs).cmd = s.cmd := rfl
@[simp] theorem State.commitOutput_srcAddr (s : State) (n : Nat) (bs : List Byte) :
    (s.commitOutput n bs).srcAddr = s.srcAddr := rfl
@[simp] theorem State.commitOutput_srcLen (s : State) (n : Nat) (bs : List Byte) :
    (s.commitOutput n bs).srcLen = s.srcLen := rfl
@[simp] theorem State.commitOutput_dstAddr (s : State) (n : Nat) (bs : List Byte) :
    (s.commitOutput n bs).dstAddr = s.dstAddr := rfl
@[simp] theorem State.commitOutput_auxAddr (s : State) (n : Nat) (bs : List Byte) :
    (s.commitOutput n bs).auxAddr = s.auxAddr := rfl
@[simp] theorem State.commitOutput_auxLen (s : State) (n : Nat) (bs : List Byte) :
    (s.commitOutput n bs).auxLen = s.auxLen := rfl
@[simp] theorem State.commitOutput_width (s : State) (n : Nat) (bs : List Byte) :
    (s.commitOutput n bs).width = s.width := rfl
@[simp] theorem State.commitOutput_height (s : State) (n : Nat) (bs : List Byte) :
    (s.commitOutput n bs).height = s.height := rfl
@[simp] theorem State.commitOutput_din (s : State) (n : Nat) (bs : List Byte) :
    (s.commitOutput n bs).din = s.din := rfl
@[simp] theorem State.commitOutput_dout (s : State) (n : Nat) (bs : List Byte) :
    (s.commitOutput n bs).dout = s.dout := rfl
@[simp] theorem State.commitOutput_swidth (s : State) (n : Nat) (bs : List Byte) :
    (s.commitOutput n bs).swidth = s.swidth := rfl
@[simp] theorem State.commitOutput_outLen (s : State) (n : Nat) (bs : List Byte) :
    (s.commitOutput n bs).outLen = BitVec.ofNat 32 n := rfl
@[simp] theorem State.commitOutput_secCount (s : State) (n : Nat) (bs : List Byte) :
    (s.commitOutput n bs).secCount = s.secCount := rfl
@[simp] theorem State.commitOutput_secLen (s : State) (n : Nat) (bs : List Byte) :
    (s.commitOutput n bs).secLen = s.secLen := rfl
@[simp] theorem State.commitOutput_secAddr (s : State) (n : Nat) (bs : List Byte) :
    (s.commitOutput n bs).secAddr = s.secAddr := rfl
@[simp] theorem State.commitOutput_mem (s : State) (n : Nat) (bs : List Byte) :
    (s.commitOutput n bs).mem = s.mem.writeBytes s.dstAddr.toNat bs := rfl
@[simp] theorem State.commitOutput_refusedMark (s : State) (n : Nat) (bs : List Byte) :
    (s.commitOutput n bs).refusedMark = s.refusedMark := rfl
@[simp] theorem State.commitOutput_faultMark (s : State) (n : Nat) (bs : List Byte) :
    (s.commitOutput n bs).faultMark = s.faultMark := rfl
@[simp] theorem State.commitOutput_memExp (s : State) (n : Nat) (bs : List Byte) :
    (s.commitOutput n bs).memExp = s.memExp := rfl
@[simp] theorem State.commitOutput_agenda (s : State) (n : Nat) (bs : List Byte) :
    (s.commitOutput n bs).agenda = s.agenda := rfl
@[simp] theorem State.commitOutput_reply (s : State) (n : Nat) (bs : List Byte) :
    (s.commitOutput n bs).reply = s.reply := rfl

/-! ### `State.commitSections` -/

@[simp] theorem State.commitSections_ctrl (s : State) (a : Nat) (lens occ : List Nat) :
    (s.commitSections a lens occ).ctrl = s.ctrl := rfl
@[simp] theorem State.commitSections_phase (s : State) (a : Nat) (lens occ : List Nat) :
    (s.commitSections a lens occ).phase = s.phase := rfl
@[simp] theorem State.commitSections_done (s : State) (a : Nat) (lens occ : List Nat) :
    (s.commitSections a lens occ).done = s.done := rfl
@[simp] theorem State.commitSections_err (s : State) (a : Nat) (lens occ : List Nat) :
    (s.commitSections a lens occ).err = s.err := rfl
@[simp] theorem State.commitSections_errCode (s : State) (a : Nat) (lens occ : List Nat) :
    (s.commitSections a lens occ).errCode = s.errCode := rfl
@[simp] theorem State.commitSections_cmd (s : State) (a : Nat) (lens occ : List Nat) :
    (s.commitSections a lens occ).cmd = s.cmd := rfl
@[simp] theorem State.commitSections_srcAddr (s : State) (a : Nat) (lens occ : List Nat) :
    (s.commitSections a lens occ).srcAddr = s.srcAddr := rfl
@[simp] theorem State.commitSections_srcLen (s : State) (a : Nat) (lens occ : List Nat) :
    (s.commitSections a lens occ).srcLen = s.srcLen := rfl
@[simp] theorem State.commitSections_dstAddr (s : State) (a : Nat) (lens occ : List Nat) :
    (s.commitSections a lens occ).dstAddr = s.dstAddr := rfl
@[simp] theorem State.commitSections_auxAddr (s : State) (a : Nat) (lens occ : List Nat) :
    (s.commitSections a lens occ).auxAddr = s.auxAddr := rfl
@[simp] theorem State.commitSections_auxLen (s : State) (a : Nat) (lens occ : List Nat) :
    (s.commitSections a lens occ).auxLen = s.auxLen := rfl
@[simp] theorem State.commitSections_width (s : State) (a : Nat) (lens occ : List Nat) :
    (s.commitSections a lens occ).width = s.width := rfl
@[simp] theorem State.commitSections_height (s : State) (a : Nat) (lens occ : List Nat) :
    (s.commitSections a lens occ).height = s.height := rfl
@[simp] theorem State.commitSections_din (s : State) (a : Nat) (lens occ : List Nat) :
    (s.commitSections a lens occ).din = s.din := rfl
@[simp] theorem State.commitSections_dout (s : State) (a : Nat) (lens occ : List Nat) :
    (s.commitSections a lens occ).dout = s.dout := rfl
@[simp] theorem State.commitSections_swidth (s : State) (a : Nat) (lens occ : List Nat) :
    (s.commitSections a lens occ).swidth = s.swidth := rfl
@[simp] theorem State.commitSections_outLen (s : State) (a : Nat) (lens occ : List Nat) :
    (s.commitSections a lens occ).outLen = s.outLen := rfl
@[simp] theorem State.commitSections_secCount (s : State) (a : Nat) (lens occ : List Nat) :
    (s.commitSections a lens occ).secCount = BitVec.ofNat 32 lens.length := rfl
@[simp] theorem State.commitSections_secLen (s : State) (a : Nat) (lens occ : List Nat) :
    (s.commitSections a lens occ).secLen = Vector.ofFn fun i => BitVec.ofNat 32 (lens.getD i.val 0) := rfl
@[simp] theorem State.commitSections_secAddr (s : State) (a : Nat) (lens occ : List Nat) :
    (s.commitSections a lens occ).secAddr = Vector.ofFn fun i => if i.val < lens.length then BitVec.ofNat 32 (a + (occ.take i.val).sum) else 0 := rfl
@[simp] theorem State.commitSections_mem (s : State) (a : Nat) (lens occ : List Nat) :
    (s.commitSections a lens occ).mem = s.mem := rfl
@[simp] theorem State.commitSections_refusedMark (s : State) (a : Nat) (lens occ : List Nat) :
    (s.commitSections a lens occ).refusedMark = s.refusedMark := rfl
@[simp] theorem State.commitSections_faultMark (s : State) (a : Nat) (lens occ : List Nat) :
    (s.commitSections a lens occ).faultMark = s.faultMark := rfl
@[simp] theorem State.commitSections_memExp (s : State) (a : Nat) (lens occ : List Nat) :
    (s.commitSections a lens occ).memExp = s.memExp := rfl
@[simp] theorem State.commitSections_agenda (s : State) (a : Nat) (lens occ : List Nat) :
    (s.commitSections a lens occ).agenda = s.agenda := rfl
@[simp] theorem State.commitSections_reply (s : State) (a : Nat) (lens occ : List Nat) :
    (s.commitSections a lens occ).reply = s.reply := rfl

/-! ### `State.assertReset` -/

@[simp] theorem State.assertReset_ctrl (s : State) : s.assertReset.ctrl = State.reset.ctrl := rfl
@[simp] theorem State.assertReset_phase (s : State) : s.assertReset.phase = State.reset.phase := rfl
@[simp] theorem State.assertReset_done (s : State) : s.assertReset.done = State.reset.done := rfl
@[simp] theorem State.assertReset_err (s : State) : s.assertReset.err = State.reset.err := rfl
@[simp] theorem State.assertReset_errCode (s : State) : s.assertReset.errCode = State.reset.errCode := rfl
@[simp] theorem State.assertReset_cmd (s : State) : s.assertReset.cmd = State.reset.cmd := rfl
@[simp] theorem State.assertReset_srcAddr (s : State) : s.assertReset.srcAddr = State.reset.srcAddr := rfl
@[simp] theorem State.assertReset_srcLen (s : State) : s.assertReset.srcLen = State.reset.srcLen := rfl
@[simp] theorem State.assertReset_dstAddr (s : State) : s.assertReset.dstAddr = State.reset.dstAddr := rfl
@[simp] theorem State.assertReset_auxAddr (s : State) : s.assertReset.auxAddr = State.reset.auxAddr := rfl
@[simp] theorem State.assertReset_auxLen (s : State) : s.assertReset.auxLen = State.reset.auxLen := rfl
@[simp] theorem State.assertReset_width (s : State) : s.assertReset.width = State.reset.width := rfl
@[simp] theorem State.assertReset_height (s : State) : s.assertReset.height = State.reset.height := rfl
@[simp] theorem State.assertReset_din (s : State) : s.assertReset.din = State.reset.din := rfl
@[simp] theorem State.assertReset_dout (s : State) : s.assertReset.dout = State.reset.dout := rfl
@[simp] theorem State.assertReset_swidth (s : State) : s.assertReset.swidth = State.reset.swidth := rfl
@[simp] theorem State.assertReset_outLen (s : State) : s.assertReset.outLen = State.reset.outLen := rfl
@[simp] theorem State.assertReset_secCount (s : State) : s.assertReset.secCount = State.reset.secCount := rfl
@[simp] theorem State.assertReset_secLen (s : State) : s.assertReset.secLen = State.reset.secLen := rfl
@[simp] theorem State.assertReset_secAddr (s : State) : s.assertReset.secAddr = State.reset.secAddr := rfl
@[simp] theorem State.assertReset_mem (s : State) : s.assertReset.mem = s.mem := rfl
@[simp] theorem State.assertReset_refusedMark (s : State) :
    s.assertReset.refusedMark = State.reset.refusedMark := rfl
@[simp] theorem State.assertReset_faultMark (s : State) :
    s.assertReset.faultMark = State.reset.faultMark := rfl
@[simp] theorem State.assertReset_memExp (s : State) : s.assertReset.memExp = s.memExp := rfl
@[simp] theorem State.assertReset_agenda (s : State) : s.assertReset.agenda = s.agenda := rfl
@[simp] theorem State.assertReset_reply (s : State) : s.assertReset.reply = s.reply := rfl

/-! ### `State.cyclePower` -/

@[simp] theorem State.cyclePower_ctrl (s : State) : s.cyclePower.ctrl = State.reset.ctrl := rfl
@[simp] theorem State.cyclePower_phase (s : State) : s.cyclePower.phase = State.reset.phase := rfl
@[simp] theorem State.cyclePower_done (s : State) : s.cyclePower.done = State.reset.done := rfl
@[simp] theorem State.cyclePower_err (s : State) : s.cyclePower.err = State.reset.err := rfl
@[simp] theorem State.cyclePower_errCode (s : State) : s.cyclePower.errCode = State.reset.errCode := rfl
@[simp] theorem State.cyclePower_cmd (s : State) : s.cyclePower.cmd = State.reset.cmd := rfl
@[simp] theorem State.cyclePower_srcAddr (s : State) : s.cyclePower.srcAddr = State.reset.srcAddr := rfl
@[simp] theorem State.cyclePower_srcLen (s : State) : s.cyclePower.srcLen = State.reset.srcLen := rfl
@[simp] theorem State.cyclePower_dstAddr (s : State) : s.cyclePower.dstAddr = State.reset.dstAddr := rfl
@[simp] theorem State.cyclePower_auxAddr (s : State) : s.cyclePower.auxAddr = State.reset.auxAddr := rfl
@[simp] theorem State.cyclePower_auxLen (s : State) : s.cyclePower.auxLen = State.reset.auxLen := rfl
@[simp] theorem State.cyclePower_width (s : State) : s.cyclePower.width = State.reset.width := rfl
@[simp] theorem State.cyclePower_height (s : State) : s.cyclePower.height = State.reset.height := rfl
@[simp] theorem State.cyclePower_din (s : State) : s.cyclePower.din = State.reset.din := rfl
@[simp] theorem State.cyclePower_dout (s : State) : s.cyclePower.dout = State.reset.dout := rfl
@[simp] theorem State.cyclePower_swidth (s : State) : s.cyclePower.swidth = State.reset.swidth := rfl
@[simp] theorem State.cyclePower_outLen (s : State) : s.cyclePower.outLen = State.reset.outLen := rfl
@[simp] theorem State.cyclePower_secCount (s : State) : s.cyclePower.secCount = State.reset.secCount := rfl
@[simp] theorem State.cyclePower_secLen (s : State) : s.cyclePower.secLen = State.reset.secLen := rfl
@[simp] theorem State.cyclePower_secAddr (s : State) : s.cyclePower.secAddr = State.reset.secAddr := rfl
@[simp] theorem State.cyclePower_mem (s : State) : s.cyclePower.mem = [] := rfl
@[simp] theorem State.cyclePower_refusedMark (s : State) :
    s.cyclePower.refusedMark = State.reset.refusedMark := rfl
@[simp] theorem State.cyclePower_faultMark (s : State) : s.cyclePower.faultMark = State.reset.faultMark := rfl
@[simp] theorem State.cyclePower_memExp (s : State) : s.cyclePower.memExp = s.memExp := rfl
@[simp] theorem State.cyclePower_agenda (s : State) : s.cyclePower.agenda = s.agenda := rfl
@[simp] theorem State.cyclePower_reply (s : State) : s.cyclePower.reply = s.reply := rfl

end Sys2Proof.Machine
end

