-- ==== Sys2Proof/Laws/Commands.lean ====
section
/-! SUPPORT. What each command's rule does when it succeeds, and everything `exec` can do. -/

namespace Sys2Proof.Machine

/-! ### The elements of the buffer commands -/

@[simp] theorem pixelBytes_length (p : Word) : (pixelBytes p).length = 4 := by simp [pixelBytes]

/-- A pixel reads back from its 4 bytes (R53). -/
theorem leNat_pixelBytes (p : Word) : leNat (pixelBytes p) = p.toNat := by
  have := p.isLt
  rw [pixelBytes, leNat_leBytes]
  omega

/-- The output of a loop whose elements are all `e` bytes has `e * n` bytes. -/
theorem gather_length {f : Nat → Option (List Byte)} {n e : Nat} {bs : List Byte}
    (h : gather n f = some bs) (he : ∀ p < n, ∀ x, f p = some x → x.length = e) : bs.length = e * n := by
  obtain ⟨xs, hl, hp, rfl⟩ := gather_eq_some.1 h
  rw [flatten_length (e := e), hl]
  intro x hx
  obtain ⟨p, hpl, rfl⟩ := List.getElem_of_mem hx
  exact he p (by omega) _ (by rw [hp p (by omega), List.getElem?_eq_getElem hpl])

/-- Element `p` of that output stands at byte `e * p`. -/
theorem gather_slice {f : Nat → Option (List Byte)} {n e : Nat} {bs : List Byte}
    (h : gather n f = some bs) (he : ∀ p < n, ∀ x, f p = some x → x.length = e) {p : Nat} (hp : p < n) :
    f p = some ((bs.drop (e * p)).take e) := by
  have hbl := gather_length h he
  obtain ⟨xs, hl, hf, rfl⟩ := gather_eq_some.1 h
  have hall : ∀ x ∈ xs, x.length = e := by
    intro x hx
    obtain ⟨q, hq, rfl⟩ := List.getElem_of_mem hx
    exact he q (by omega) _ (by rw [hf q (by omega), List.getElem?_eq_getElem hq])
  have hpx : p < xs.length := by omega
  rw [hf p hp, List.getElem?_eq_getElem hpx]
  congr 1
  have hfit : e * p + e ≤ e * n := by
    rw [← Nat.mul_succ]; exact Nat.mul_le_mul_left e hp
  apply List.ext_getElem?
  intro j
  by_cases hj : j < e
  · rw [List.getElem?_take, if_pos hj, List.getElem?_drop, flatten_getElem? hall hj,
      List.getElem?_eq_getElem hpx]
    rfl
  · rw [List.getElem?_eq_none (by rw [hall _ (List.getElem_mem hpx)]; omega),
      List.getElem?_eq_none (by simp only [List.length_take, List.length_drop]; omega)]

/-- A buffer command that is done and wrote elements of `e` bytes: each stands at DST_ADDR + `e * p`. -/
theorem commitOutput_readBytes {s : State} {f : Nat → Option (List Byte)} {n e out : Nat} {bs : List Byte}
    (h : gather n f = some bs) (he : ∀ p < n, ∀ x, f p = some x → x.length = e) {p : Nat} (hp : p < n) :
    (s.commitOutput out bs).mem.readBytes (s.dst + e * p) e = f p := by
  have hl := gather_length h he
  have hfit : e * p + e ≤ bs.length := by
    rw [hl, ← Nat.mul_succ]; exact Nat.mul_le_mul_left e hp
  rw [State.commitOutput_mem]
  exact (Memory.readBytes_writeBytes hfit).trans (gather_slice h he hp).symm

/-! ### HDR -/

theorem Memory.readWords_eq_some {m : Memory} {n a : Nat} {ls : List Nat} :
    m.readWords a n = some ls ↔ ls.length = n ∧ ∀ k < n, m.readNat (a + 4 * k) 4 = ls[k]? := by
  induction n generalizing a ls with
  | zero => simp [Memory.readWords, List.length_eq_zero_iff, eq_comm (a := ([] : List Nat))]
  | succ n ih =>
    rw [Memory.readWords]
    cases hr : m.readNat a 4 with
    | none =>
      simp only [reduceCtorEq, false_iff, not_and]
      intro hl hk
      have h0 := hk 0 (by omega)
      rw [Nat.mul_zero, Nat.add_zero, hr] at h0
      cases ls <;> simp at hl h0
    | some v =>
      simp only [Option.map_eq_some_iff, ih]
      constructor
      · rintro ⟨l, ⟨hl, hk⟩, rfl⟩
        refine ⟨by simp [hl], fun k hkn => ?_⟩
        cases k with
        | zero => simpa using hr
        | succ k => simpa [Nat.mul_add, Nat.add_assoc, Nat.add_comm 4] using hk k (by omega)
      · rintro ⟨hl, hk⟩
        cases ls with
        | nil => simp at hl
        | cons c l =>
          have h0 := hk 0 (by omega)
          rw [Nat.mul_zero, Nat.add_zero, hr] at h0
          refine ⟨l, ⟨by simpa using hl, fun k hkn => ?_⟩, by simpa using h0⟩
          simpa [Nat.mul_add, Nat.add_assoc, Nat.add_comm 4] using hk (k + 1) (by omega)

theorem Memory.readPalette_eq_some {m : Memory} {n a : Nat} {ps : List Word} :
    m.readPalette a n = some ps
      ↔ ps.length = n ∧ ∀ k < n, (m.packedAt (a + 2 * k)).map (unpack · false) = ps[k]? := by
  induction n generalizing a ps with
  | zero => simp [Memory.readPalette, List.length_eq_zero_iff, eq_comm (a := ([] : List Word))]
  | succ n ih =>
    rw [Memory.readPalette]
    cases hr : m.packedAt a with
    | none =>
      simp only [reduceCtorEq, false_iff, not_and]
      intro hl hk
      have h0 := hk 0 (by omega)
      rw [Nat.mul_zero, Nat.add_zero, hr] at h0
      cases ps <;> simp at hl h0
    | some v =>
      simp only [Option.map_eq_some_iff, ih]
      constructor
      · rintro ⟨l, ⟨hl, hk⟩, rfl⟩
        refine ⟨by simp [hl], fun k hkn => ?_⟩
        cases k with
        | zero => simp [hr]
        | succ k => simpa [Nat.mul_add, Nat.add_assoc, Nat.add_comm 2] using hk k (by omega)
      · rintro ⟨hl, hk⟩
        cases ps with
        | nil => simp at hl
        | cons c l =>
          have h0 := hk 0 (by omega)
          rw [Nat.mul_zero, Nat.add_zero, hr] at h0
          refine ⟨l, ⟨by simpa using hl, fun k hkn => ?_⟩, by simpa using h0⟩
          simpa [Nat.mul_add, Nat.add_assoc, Nat.add_comm 2] using hk (k + 1) (by omega)

theorem checkMagic_done {s t : State} {v : Verdict} :
    checkMagic s v = .done t
      ↔ (s.magicCheck = true → s.mem.readNat s.src 4 = some magicWord) ∧ v = .done t := by
  unfold checkMagic
  split_ifs with h
  · rw [load_eq_done]
    constructor
    · rintro ⟨x, hx, hv⟩
      split_ifs at hv with hm
      exact ⟨fun _ => by rw [hx, hm], hv⟩
    · rintro ⟨hm, hv⟩
      exact ⟨_, hm h, by simpa using hv⟩
  · simp [h]

/-- What HDR does when it succeeds (R150 to R155). -/
theorem hdrRule_done {f : Fmt} {s t : State} :
    hdrRule f s = .done t
      ↔ s.srcInMem = true ∧ 8 ≤ s.srcLen.toNat
        ∧ (s.magicCheck = true → s.mem.readNat s.src 4 = some magicWord)
        ∧ ∃ lens, s.mem.readNat (s.src + 4) 4 = some lens.length ∧ countAllowed f lens.length = true
          ∧ tableBytes lens.length ≤ s.srcLen.toNat
          ∧ s.mem.readWords (s.src + 8) lens.length = some lens
          ∧ (occupied f lens).sum ≤ s.srcLen.toNat - tableBytes lens.length
          ∧ (s.strictLen = true → (occupied f lens).sum = s.srcLen.toNat - tableBytes lens.length)
          ∧ t = s.commitSections (s.src + tableBytes lens.length) lens (occupied f lens) := by
  unfold hdrRule
  split_ifs with h₁ h₂
  · simp only [false_iff]; intro h; simp_all
  · simp only [false_iff]; omega
  simp only [Bool.not_eq_eq_eq_not, Bool.not_true, Bool.not_eq_false] at h₁
  simp only [checkMagic_done, load_eq_done, h₁, show 8 ≤ s.srcLen.toNat by omega, true_and]
  refine and_congr_right fun _ => ?_
  constructor
  · rintro ⟨count, hc, ht⟩
    unfold tableRule at ht
    split_ifs at ht with h₃ h₄
    obtain ⟨lens, hl, hs⟩ := load_eq_done.1 ht
    obtain rfl : lens.length = count := (Memory.readWords_eq_some.1 hl).1
    simp only [sectionsRule] at hs
    split_ifs at hs with h₅ h₆
    refine ⟨lens, hc, by simpa using h₃, by omega, hl, by omega, fun hst => ?_, by simpa [eq_comm] using hs⟩
    simp only [hst, Bool.true_and, decide_eq_true_eq] at h₆
    omega
  · rintro ⟨lens, hc, ha, ht, hl, hle, hst, rfl⟩
    refine ⟨_, hc, ?_⟩
    rw [tableRule, if_neg (by simp [ha]), if_neg (by omega), load_eq_done]
    refine ⟨lens, hl, ?_⟩
    simp only [sectionsRule]
    rw [if_neg (by omega), if_neg]
    simp only [Bool.and_eq_true, decide_eq_true_eq, not_and]
    intro h
    have := hst h
    omega

/-! ### The palettes -/

theorem pal8Rule_done {s t : State} :
    pal8Rule s = .done t
      ↔ s.w ≤ maxWidth ∧ s.srcInMem = true ∧ s.auxLen.toNat = nbfPaletteBytes
        ∧ s.elems ≤ s.srcLen.toNat ∧ s.inMem s.aux nbfPaletteBytes = true
        ∧ s.inMem s.dst (4 * s.elems) = true ∧ disjoint s.dst (4 * s.elems) s.src s.elems = true
        ∧ disjoint s.dst (4 * s.elems) s.aux nbfPaletteBytes = true
        ∧ ∃ pal bytes, s.mem.readPalette s.aux 256 = some pal
          ∧ gather s.elems (fun p =>
              (s.mem.read (s.src + p)).map fun ix => pixelBytes (pal.getD ix.toNat 0)) = some bytes
          ∧ t = s.commitOutput (4 * s.elems) bytes := by
  simp only [pal8Rule]
  split_ifs with h₁ h₂ h₃ h₄ h₅ h₆ h₇
  · simp only [false_iff]; omega
  · simp only [false_iff]; intro h; simp_all
  · simp only [false_iff]; intro h; simp_all
  · simp only [false_iff]; omega
  · simp only [false_iff]; intro h; simp_all
  · simp only [false_iff]; intro h; simp_all
  · simp only [false_iff]; intro h; simp_all
  · simp only [Bool.not_eq_eq_eq_not, Bool.not_true, Bool.not_eq_false, Bool.and_eq_true, not_not] at h₂ h₃ h₅ h₆ h₇
    simp only [load_eq_done, h₂, h₃, h₅, h₆, h₇.1, h₇.2, show s.w ≤ maxWidth by omega,
      show s.elems ≤ s.srcLen.toNat by omega, true_and, Verdict.done.injEq]
    constructor
    · rintro ⟨pal, hp, bytes, hb, rfl⟩
      exact ⟨pal, bytes, hp, hb, rfl⟩
    · rintro ⟨pal, bytes, hp, hb, rfl⟩
      exact ⟨pal, hp, bytes, hb, rfl⟩

theorem pal4Rule_done {s t : State} :
    pal4Rule s = .done t
      ↔ s.w ≤ maxWidth ∧ s.srcInMem = true ∧ (s.elems + 1) / 2 ≤ s.srcLen.toNat
        ∧ s.inMem s.aux (pow2ceil s.auxLen.toNat) = true ∧ s.inMem s.dst (4 * s.elems) = true
        ∧ disjoint s.dst (4 * s.elems) s.src ((s.elems + 1) / 2) = true
        ∧ disjoint s.dst (4 * s.elems) s.aux (pow2ceil s.auxLen.toNat) = true
        ∧ ∃ pal bytes,
            s.mem.readPalette s.aux (min npfEntries (pow2ceil s.auxLen.toNat / 2)) = some pal
          ∧ gather s.elems (fun p =>
              (s.mem.read (s.src + p / 2)).map fun b => pixelBytes (npfPixel pal (nibble p b)))
              = some bytes
          ∧ t = s.commitOutput (4 * s.elems) bytes := by
  simp only [pal4Rule]
  split_ifs with h₁ h₂ h₃ h₄ h₅ h₆
  · simp only [false_iff]; omega
  · simp only [false_iff]; intro h; simp_all
  · simp only [false_iff]; omega
  · simp only [false_iff]; intro h; simp_all
  · simp only [false_iff]; intro h; simp_all
  · simp only [false_iff]; intro h; simp_all
  · simp only [Bool.not_eq_eq_eq_not, Bool.not_true, Bool.not_eq_false, Bool.and_eq_true] at h₂ h₄ h₅ h₆
    simp only [load_eq_done, h₂, h₄, h₅, h₆.1, h₆.2, show s.w ≤ maxWidth by omega,
      show (s.elems + 1) / 2 ≤ s.srcLen.toNat by omega, true_and, Verdict.done.injEq]
    constructor
    · rintro ⟨pal, hp, bytes, hb, rfl⟩
      exact ⟨pal, bytes, hp, hb, rfl⟩
    · rintro ⟨pal, bytes, hp, hb, rfl⟩
      exact ⟨pal, hp, bytes, hb, rfl⟩

/-! ### All commands -/

/-- What a command that succeeds commits, besides the success status. -/
inductive Commits (s : State) : State → Prop
  | nothing : Commits s s
  | dout (v : Word) : Commits s { s with dout := v }
  | swidth (h : s.w ≤ maxWidth) : Commits s { s with swidth := BitVec.ofNat 32 s.sw }
  | output (out : Nat) (bytes : List Byte) (hl : bytes.length = out) (hm : s.inMem s.dst out = true) :
      Commits s (s.commitOutput out bytes)
  | sections (f : Fmt) (lens : List Nat) (hc : countAllowed f lens.length = true)
      (hm : s.srcInMem = true)
      (hs : tableBytes lens.length + (occupied f lens).sum ≤ s.srcLen.toNat) :
      Commits s (s.commitSections (s.src + tableBytes lens.length) lens (occupied f lens))

theorem convRule_commits {a : Bool} {s t : State} (h : convRule a s = .done t) : Commits s t := by
  obtain ⟨-, -, -, hm, -, bytes, hb, rfl⟩ := copyRule_done.1 h
  refine .output _ _ (gather_length hb fun p _ x hx => ?_) hm
  obtain ⟨w, -, rfl⟩ := Option.map_eq_some_iff.1 hx
  exact pixelBytes_length _

theorem padRule_commits {e : Nat} {s t : State} (h : padRule e s = .done t) : Commits s t := by
  obtain ⟨-, -, -, hm, -, bytes, hb, rfl⟩ := copyRule_done.1 h
  refine .output _ _ ?_ hm
  rw [gather_length hb fun p _ x hx => (Memory.readBytes_eq_some.1 hx).1, Nat.mul_assoc]

theorem cropRule_commits {e : Nat} {s t : State} (h : cropRule e s = .done t) : Commits s t := by
  obtain ⟨-, -, -, hm, -, bytes, hb, rfl⟩ := copyRule_done.1 h
  refine .output _ _ ?_ hm
  rw [gather_length hb fun p _ x hx => (Memory.readBytes_eq_some.1 hx).1, Nat.mul_assoc]

theorem pal8Rule_commits {s t : State} (h : pal8Rule s = .done t) : Commits s t := by
  obtain ⟨-, -, -, -, -, hm, -, -, pal, bytes, -, hb, rfl⟩ := pal8Rule_done.1 h
  refine .output _ _ (gather_length hb fun p _ x hx => ?_) hm
  obtain ⟨w, -, rfl⟩ := Option.map_eq_some_iff.1 hx
  exact pixelBytes_length _

theorem pal4Rule_commits {s t : State} (h : pal4Rule s = .done t) : Commits s t := by
  obtain ⟨-, -, -, -, hm, -, -, pal, bytes, -, hb, rfl⟩ := pal4Rule_done.1 h
  refine .output _ _ (gather_length hb fun p _ x hx => ?_) hm
  obtain ⟨w, -, rfl⟩ := Option.map_eq_some_iff.1 hx
  exact pixelBytes_length _

theorem hdrRule_commits {f : Fmt} {s t : State} (h : hdrRule f s = .done t) : Commits s t := by
  obtain ⟨hm, -, -, lens, -, hc, ht, -, hs, -, rfl⟩ := hdrRule_done.1 h
  exact .sections f lens hc hm (by omega)

theorem swidRule_commits {s t : State} (h : swidRule s = .done t) : Commits s t := by
  unfold swidRule at h
  split_ifs at h with hw
  obtain rfl := by simpa [eq_comm] using h
  exact .swidth (by omega)

/-- Everything a command can do when it answers a next state: raise, with STATUS alone changed (R203), or
commit with the success status (R194). -/
theorem exec_next {i : Instr} {s t : State} (h : exec i s = .next t) :
    (∃ e, t = s.fail e) ∨ ∃ u, Commits s u ∧ t = u.succeed := by
  have key : ∀ {v : Verdict}, finish s v = .next t → (∀ u, v = .done u → Commits s u) →
      (∃ e, t = s.fail e) ∨ ∃ u, Commits s u ∧ t = u.succeed := by
    intro v hf hc
    rcases finish_next hf with ⟨u, hu, rfl⟩ | ⟨e, -, rfl⟩
    · exact .inr ⟨u, hc u hu, rfl⟩
    · exact .inl ⟨e, rfl⟩
  have one : ∀ {a b : State}, Commits s a → Verdict.done a = .done b → Commits s b := by
    intro a b ha hab; cases hab; exact ha
  cases i with
  | nop => rw [exec, execNop] at h; exact key h fun u => one .nothing
  | unpk5551 => rw [exec, execUnpk5551] at h; exact key h fun u => one (.dout _)
  | unpk555 => rw [exec, execUnpk555] at h; exact key h fun u => one (.dout _)
  | pack5551 => rw [exec, execPack5551] at h; exact key h fun u => one (.dout _)
  | pack555 => rw [exec, execPack555] at h; exact key h fun u => one (.dout _)
  | swid => exact key h fun u => swidRule_commits
  | conv5551 => exact key h fun u => convRule_commits
  | conv555 => exact key h fun u => convRule_commits
  | pad e =>
    simp only [exec, execPad] at h
    split_ifs at h
    · exact key h fun u => padRule_commits
    · exact .inl ⟨_, by simpa [State.raise, eq_comm] using h⟩
  | crop e =>
    simp only [exec, execCrop] at h
    split_ifs at h
    · exact key h fun u => cropRule_commits
    · exact .inl ⟨_, by simpa [State.raise, eq_comm] using h⟩
  | pal8 => exact key h fun u => pal8Rule_commits
  | pal4 => exact key h fun u => pal4Rule_commits
  | hdr f =>
    simp only [exec, execHdr] at h
    split_ifs at h
    · exact key h fun u => hdrRule_commits
    · exact .inl ⟨_, by simpa [State.raise, eq_comm] using h⟩

end Sys2Proof.Machine
end

