-- ==== Sys2Proof/Laws/Decode.lean ====
section
/-! SUPPORT. A command word and its fields. -/

namespace Sys2Proof

/-- A command word is its four fields (R71). -/
theorem word_of_fields (w : Word) : rsvField w ++ fmtField w ++ esizeField w ++ opField w = w := by
  apply BitVec.eq_of_getLsbD_eq
  intro i hi
  simp only [rsvField, fmtField, esizeField, opField, BitVec.getLsbD_append, BitVec.getLsbD_extractLsb']
  split_ifs with h₁ h₂ h₃
  · simp [h₁]
  · simp [show i - 8 < 2 by omega, show 8 + (i - 8) = i by omega]
  · simp [show i - 8 - 2 < 2 by omega, show 10 + (i - 8 - 2) = i by omega]
  · simp [show i - 8 - 2 - 2 < 20 by omega, show 12 + (i - 8 - 2 - 2) = i by omega]

/-- A word that decodes to a command, or is rejected for another reason than RSV, has RSV = 0. -/
theorem rsvField_eq_zero {w : Word} (h : decode w ≠ .rejected .reservedBits) : rsvField w = 0#20 := by
  by_contra hr
  exact h (if_neg hr)

end Sys2Proof
end

