-- ==== Sys2Proof/Laws/PerInstr.lean ====
section
/-! SUPPORT. Per command: its word lies in its row of spec/opcode_table.json, for every ESIZE and FMT code. -/

namespace Sys2Proof.Laws.TableRow

/-- The row's `mask` in spec/opcode_table.json. -/
def mask : Instr → Word
  | .nop => 0xFFFFFFFF
  | .unpk5551 => 0xFFFFFFFF
  | .unpk555 => 0xFFFFFFFF
  | .pack5551 => 0xFFFFFFFF
  | .pack555 => 0xFFFFFFFF
  | .swid => 0xFFFFFFFF
  | .conv5551 => 0xFFFFFFFF
  | .conv555 => 0xFFFFFFFF
  | .pad _ => 0xFFFFFCFF
  | .crop _ => 0xFFFFFCFF
  | .pal8 => 0xFFFFFFFF
  | .pal4 => 0xFFFFFFFF
  | .hdr _ => 0xFFFFF3FF

/-- The row's `match` in spec/opcode_table.json. -/
def value : Instr → Word
  | .nop => 0x00000000
  | .unpk5551 => 0x00000001
  | .unpk555 => 0x00000002
  | .pack5551 => 0x00000003
  | .pack555 => 0x00000004
  | .swid => 0x00000005
  | .conv5551 => 0x00000008
  | .conv555 => 0x00000009
  | .pad _ => 0x0000000C
  | .crop _ => 0x0000000D
  | .pal8 => 0x00000010
  | .pal4 => 0x00000011
  | .hdr _ => 0x00000018

/-- The encoder's word lies in the command's row. -/
def Statement (i : Instr) : Prop := encode i &&& mask i = value i

theorem nop : Statement .nop := by unfold Statement; decide
theorem unpk5551 : Statement .unpk5551 := by unfold Statement; decide
theorem unpk555 : Statement .unpk555 := by unfold Statement; decide
theorem pack5551 : Statement .pack5551 := by unfold Statement; decide
theorem pack555 : Statement .pack555 := by unfold Statement; decide
theorem swid : Statement .swid := by unfold Statement; decide
theorem conv5551 : Statement .conv5551 := by unfold Statement; decide
theorem conv555 : Statement .conv555 := by unfold Statement; decide
theorem pad (e : ESize) : Statement (.pad e) := by cases e <;> (unfold Statement; decide)
theorem crop (e : ESize) : Statement (.crop e) := by cases e <;> (unfold Statement; decide)
theorem pal8 : Statement .pal8 := by unfold Statement; decide
theorem pal4 : Statement .pal4 := by unfold Statement; decide
theorem hdr (f : Fmt) : Statement (.hdr f) := by cases f <;> (unfold Statement; decide)

end Sys2Proof.Laws.TableRow
end

