-- ==== Sys2Proof/Laws/Step.lean ====
section
/-! SUPPORT. How a command ends, and everything a host access and a step can do. -/

namespace Sys2Proof.Machine

/-- Every command ends as `finish` ends a verdict: it goes on, or it faults, and never refuses. -/
theorem exec_finishes (i : Instr) (s : State) : ∃ v, exec i s = finish s v := by
  cases i with
  | nop => rw [exec, execNop]; exact ⟨_, rfl⟩
  | unpk5551 => rw [exec, execUnpk5551]; exact ⟨_, rfl⟩
  | unpk555 => rw [exec, execUnpk555]; exact ⟨_, rfl⟩
  | pack5551 => rw [exec, execPack5551]; exact ⟨_, rfl⟩
  | pack555 => rw [exec, execPack555]; exact ⟨_, rfl⟩
  | swid => exact ⟨_, rfl⟩
  | conv5551 => exact ⟨_, rfl⟩
  | conv555 => exact ⟨_, rfl⟩
  | pad e =>
    simp only [exec, execPad]
    split
    · exact ⟨_, rfl⟩
    · exact ⟨.raised _, rfl⟩
  | crop e =>
    simp only [exec, execCrop]
    split
    · exact ⟨_, rfl⟩
    · exact ⟨.raised _, rfl⟩
  | pal8 => exact ⟨_, rfl⟩
  | pal4 => exact ⟨_, rfl⟩
  | hdr f =>
    simp only [exec, execHdr]
    split
    · exact ⟨_, rfl⟩
    · exact ⟨.raised _, rfl⟩

/-- Everything an access of the host can do when it is neither refused nor faults. -/
theorem hostAccess_next {a : HostAccess} {s t : State} (h : hostAccess a s = .next t) :
    (∃ v, t = { s with reply := some v })
      ∨ (s.busy = false ∧ ∃ off v, t = s.writeOffset off v)
      ∨ (s.busy = false ∧ ∃ addr n v, s.inMem addr n = true
          ∧ t = { s with mem := s.mem.writeNat addr n v }) := by
  cases a with
  | readReg off width =>
    simp only [hostAccess, hostReadReg] at h
    split_ifs at h
    exact .inl ⟨_, by simpa [eq_comm] using h⟩
  | writeReg off width v =>
    simp only [hostAccess, hostWriteReg] at h
    split_ifs at h with h₁ h₂ h₃
    exact .inr (.inl ⟨by simpa using h₂, _, _, by simpa [eq_comm] using h⟩)
  | readMem addr width =>
    simp only [hostAccess, hostReadMem] at h
    split_ifs at h
    split at h
    · exact .inl ⟨_, by simpa [eq_comm] using h⟩
    · cases h
  | writeMem addr width v =>
    simp only [hostAccess, hostWriteMem] at h
    split_ifs at h with h₁ h₂ h₃
    exact .inr (.inr ⟨by simpa using h₂, _, _, _, by simpa using h₃, by simpa [eq_comm] using h⟩)

/-- Everything one step can do when it answers a next state. -/
theorem step_next {s t : State} (h : step s = .next t) :
    (∃ a, s.nextTurn = .host a ∧ hostAccess a s.takeTurn = .next t)
      ∨ (s.nextTurn = .reset ∧ t = s.takeTurn.assertReset)
      ∨ (s.nextTurn = .power ∧ t = s.takeTurn.cyclePower)
      ∨ (s.nextTurn = .block ∧ s.phase = .idle ∧ t = s.takeTurn)
      ∨ (s.nextTurn = .block ∧ s.phase = .pending
          ∧ ((∃ i, decode s.cmd = .command i ∧ exec i s.takeTurn = .next t)
            ∨ ∃ r, decode s.cmd = .rejected r ∧ t = s.takeTurn.fail (rejectionError r))) := by
  unfold step at h
  cases ht : s.nextTurn with
  | host a => rw [ht] at h; exact .inl ⟨a, rfl, h⟩
  | reset => rw [ht] at h; exact .inr (.inl ⟨rfl, by simpa [runTurn, eq_comm] using h⟩)
  | power => rw [ht] at h; exact .inr (.inr (.inl ⟨rfl, by simpa [runTurn, eq_comm] using h⟩))
  | block =>
    rw [ht] at h
    simp only [runTurn, blockTurn, State.takeTurn_phase] at h
    cases hp : s.phase with
    | idle => rw [hp] at h; exact .inr (.inr (.inr (.inl ⟨rfl, rfl, by simpa [eq_comm] using h⟩)))
    | pending =>
      rw [hp] at h
      simp only [executeCommand, State.takeTurn_cmd] at h
      refine .inr (.inr (.inr (.inr ⟨rfl, rfl, ?_⟩)))
      cases hd : decode s.cmd with
      | command i => rw [hd] at h; exact .inl ⟨i, rfl, h⟩
      | rejected r => rw [hd] at h; exact .inr ⟨r, rfl, by simpa [State.raise, eq_comm] using h⟩


/-- A run of the machine whose first step answers a next state. -/
theorem core_run_next {s t : State} (n : Nat) (h : step s = .next t) :
    core.run (n + 1) s = core.run n t := by
  have run_succ : ∀ (M : Host.Core) (x y : M.State), M.step x = .next y → M.run (n + 1) x = M.run n y := by
    intro M x y hxy
    rw [Host.Core.run, hxy]
  exact run_succ core s t h

/-- Each register stands at its own offset of the window (R21). -/
theorem registerAt_offset (r : Reg) : registerAt r.offset = some r := by
  cases r with
  | secLen i => revert i; decide
  | secAddr i => revert i; decide
  | _ => rfl

end Sys2Proof.Machine
end

