-- ==== Sys2Proof/Machine/Notation.lean ====
section
/-! DEFINITION. The host notation of R80 and R81, as lists of turns. Each is a host action only; the block
sees the register and `MEM` accesses it expands to. -/

namespace Sys2Proof.Machine

/-- `wr REG, imm32` (R80). -/
def hostWr (r : Reg) (v : Word) : List Turn := [.host (.writeReg r.offset 4 v)]

/-- `rd REG` (R80). -/
def hostRd (r : Reg) : List Turn := [.host (.readReg r.offset 4)]

/-- `mem ADDR: b0 b1 …` (R80). -/
def hostMem : Nat → List Byte → List Turn
  | _, [] => []
  | a, b :: bs => .host (.writeMem a 1 (b.setWidth 32)) :: hostMem (a + 1) bs

/-- `mem16 ADDR: w0 w1 …` (R80). -/
def hostMem16 : Nat → List Packed → List Turn
  | _, [] => []
  | a, w :: ws => .host (.writeMem a 2 (w.setWidth 32)) :: hostMem16 (a + 2) ws

/-- `mem32 ADDR: w0 w1 …` (R80). -/
def hostMem32 : Nat → List Word → List Turn
  | _, [] => []
  | a, w :: ws => .host (.writeMem a 4 w) :: hostMem32 (a + 4) ws

/-- `cmd FORM`: a write of the form's word to CMD (R80). -/
def hostCmd (i : Instr) : List Turn := hostWr .cmd (encode i)

/-- `poll` (R81) that reads STATUS `n` times while the command is still pending, lets the block run it, and
reads STATUS once more with BUSY = 0. -/
def hostPoll (n : Nat) : List Turn :=
  List.replicate n (.host (.readReg Reg.status.offset 4)) ++ .block :: hostRd .status

/-- `run FORM`: `cmd FORM` then `poll` (R81). -/
def hostRun (n : Nat) (i : Instr) : List Turn := hostCmd i ++ hostPoll n

/-- `mv DST_REG, SRC_REG` from a state `s` (R81): a read of SRC_REG, then a write of the value read. -/
def hostMv (s : State) (dst src : Reg) : List Turn := hostRd src ++ hostWr dst (s.get src)

/-- `check` (R81): whether a STATUS word the host has read lets its program go on. -/
def hostCheck (status : Word) : Bool := !status.getLsbD 2

end Sys2Proof.Machine
end

