-- ==== Sys2Proof/Tests/Slice0.lean ====
section
/-! SUPPORT. Tests of the model, and a witness for every statement with hypotheses. Every expected value is
the spec's: a vector of spec/95_test_vectors.md, or a word written out from the encoding of R71 to R79. -/

namespace Sys2Proof.Tests

open Machine Spec

/-! ### Well-formedness and decoding -/

theorem test_pad_reserved_size_refused : (Instr.pad .reserved).wellFormed = false := by decide

theorem test_crop_reserved_size_refused : (Instr.crop .reserved).wellFormed = false := by decide

theorem test_hdr_reserved_format_refused : (Instr.hdr .reserved).wellFormed = false := by decide

/-- The 19 legal words, bit by bit: `rrrrrrrrrrrrrrrrrrrr ff ee oooooooo` (R71, R72, R79). -/
theorem test_decode_legal_words :
    decode 0b00000000000000000000_00_00_00000000 = .command .nop ∧
    decode 0b00000000000000000000_00_00_00000001 = .command .unpk5551 ∧
    decode 0b00000000000000000000_00_00_00000010 = .command .unpk555 ∧
    decode 0b00000000000000000000_00_00_00000011 = .command .pack5551 ∧
    decode 0b00000000000000000000_00_00_00000100 = .command .pack555 ∧
    decode 0b00000000000000000000_00_00_00000101 = .command .swid ∧
    decode 0b00000000000000000000_00_00_00001000 = .command .conv5551 ∧
    decode 0b00000000000000000000_00_00_00001001 = .command .conv555 ∧
    decode 0b00000000000000000000_00_00_00001100 = .command (.pad .e1) ∧
    decode 0b00000000000000000000_00_01_00001100 = .command (.pad .e2) ∧
    decode 0b00000000000000000000_00_10_00001100 = .command (.pad .e4) ∧
    decode 0b00000000000000000000_00_00_00001101 = .command (.crop .e1) ∧
    decode 0b00000000000000000000_00_01_00001101 = .command (.crop .e2) ∧
    decode 0b00000000000000000000_00_10_00001101 = .command (.crop .e4) ∧
    decode 0b00000000000000000000_00_00_00010000 = .command .pal8 ∧
    decode 0b00000000000000000000_00_00_00010001 = .command .pal4 ∧
    decode 0b00000000000000000000_00_00_00011000 = .command (.hdr .gen) ∧
    decode 0b00000000000000000000_01_00_00011000 = .command (.hdr .nbf) ∧
    decode 0b00000000000000000000_10_00_00011000 = .command (.hdr .npf) := by decide

/-- V2 to V10. -/
theorem test_decode_rejected_words :
    decode 0x0000000F = .rejected .reservedOpcode ∧ decode 0x00000C18 = .rejected .unsupportedFormat ∧
    decode 0x00000D18 = .rejected .unusedField ∧ decode 0x00000118 = .rejected .unusedField ∧
    decode 0x0000030C = .rejected .reservedSize ∧ decode 0x0000040D = .rejected .unusedField ∧
    decode 0x00000101 = .rejected .unusedField ∧ decode 0x00001001 = .rejected .reservedBits ∧
    decode 0x80000018 = .rejected .reservedBits := by decide

theorem test_decode_table_word :
    decodeTableWord 32 0x0000020D = some (.crop .e4) ∧ decodeTableWord 32 0x00000C18 = none := by decide

/-! ### One step on a small state -/

/-- The state a step answers, if it answers one. -/
def after : Host.Outcome State Fault Refusal → Option State
  | .next t => some t
  | .fault _ => none
  | .refused _ => none

/-- The step that runs the command word `w`, as the first after the host's write of CMD. -/
def runs (w : Nat) (s : State) : Option State := after (step (s.withFetchWord 32 w))

/-- `MEM` with `bs` at `a` and nothing else. -/
def bytes (a : Nat) (bs : List Byte) : Memory := cellsAt a bs

/-- Operands of a buffer command; CTRL = 3 and MEM_SIZE = 2^20, as the vectors have them. -/
def buffer (m : Memory) (src len dst w h : Word) : State :=
  { State.reset with mem := m, srcAddr := src, srcLen := len, dstAddr := dst, width := w, height := h }

/-- STATUS, OUT_LEN and `n` bytes at `a` after the command word `w`. -/
def result (w : Nat) (s : State) (a n : Nat) : Option (Nat × Nat × List Nat) := do
  let t ← runs w s
  let bs ← t.mem.readBytes a n
  return (t.statusWord.toNat, t.outLen.toNat, bs.map BitVec.toNat)

/-- STATUS, OUT_LEN and `n` pixel words at `a` after the command word `w`. -/
def pixels (w : Nat) (s : State) (a n : Nat) : Option (Nat × Nat × List Nat) := do
  let t ← runs w s
  let ps ← t.mem.readWords a n
  return (t.statusWord.toNat, t.outLen.toNat, ps)

/-- V90. -/
theorem test_nop :
    (runs 0x00 { State.reset with done := true, err := true, errCode := 2 })
      = some { State.reset with done := true } := by decide

/-- V3. -/
theorem test_unsupported_word :
    (runs 0x00000C18 State.reset).map (·.statusWord) = some 0x406 := by decide

/-- V2. -/
theorem test_illegal_word : (runs 0x0000000F State.reset).map (·.statusWord) = some 0x506 := by decide

/-- V24 and V26. -/
theorem test_unpk5551 :
    (runs 0x01 { State.reset with din := 0x0000ABCD }).map (·.dout) = some 0xFF51F369 ∧
    (runs 0x01 { State.reset with din := 0x12348001 }).map (·.dout) = some 0xFF000008 := by decide

/-- V19 and V23. -/
theorem test_unpk555 :
    (runs 0x02 { State.reset with din := 0x00007C00 }).map (·.dout) = some 0xFFFB0000 ∧
    (runs 0x02 { State.reset with din := 0x00001234 }).map (·.dout) = some 0xFF208AA2 := by decide

/-- V29, V30 and V31. -/
theorem test_pack5551 :
    (runs 0x03 { State.reset with din := 0x7F0000FF }).map (·.dout) = some 0x0000001F ∧
    (runs 0x03 { State.reset with din := 0x800000FF }).map (·.dout) = some 0x0000801F ∧
    (runs 0x03 { State.reset with din := 0xC80F0807 }).map (·.dout) = some 0x00008420 := by decide

/-- V34. -/
theorem test_pack555 :
    (runs 0x04 { State.reset with din := 0xFF0180FF }).map (·.dout) = some 0x0000021F := by decide

/-- The row of SWID values under L2, Geometry. -/
theorem test_swid :
    [0, 1, 2, 3, 5, 7, 200, 256, 257, 1000, 0x80000000].map
        (fun w => (runs 0x05 { State.reset with width := w }).map (·.swidth.toNat))
      = [0, 1, 2, 4, 8, 8, 256, 256, 512, 1024, 2 ^ 31].map some := by decide

theorem test_swid_too_wide :
    (runs 0x05 { State.reset with width := 0x80000001, swidth := 8 }).map (fun t => (t.swidth, t.statusWord))
      = some (8, 0x306) := by decide

/-- V38: no alignment (R58). -/
theorem test_conv5551_odd_addresses :
    result 0x08 (buffer (bytes 0x101 [0x1F, 0x80, 0x1F, 0x00]) 0x101 4 0x203 1 2) 0x203 8
      = some (0x002, 8, [0xFB, 0x00, 0x00, 0xFF, 0xFB, 0x00, 0x00, 0x00]) := by decide

/-- V36: the storage row is wider than the image. -/
theorem test_conv5551_storage_width :
    pixels 0x08 (buffer (bytes 0x100 [0x1F, 0x80, 0xE0, 0x03, 0x00, 0xFC, 0x00, 0x00]) 0x100 8 0x200 3 1) 0x200 4
      = some (0x002, 16, [0xFF0000FB, 0x0000FB00, 0xFFFB0000, 0x00000000]) := by decide

/-- V37. -/
theorem test_conv555 :
    pixels 0x09 (buffer (bytes 0x100 [0x00, 0x80, 0x00, 0x7C]) 0x100 4 0x200 2 1) 0x200 2
      = some (0x002, 8, [0xFF000000, 0xFFFB0000]) := by decide

/-- V40. -/
theorem test_pad_bytes :
    result 0x00C (buffer (bytes 0x100 [1, 2, 3, 4, 5, 6]) 0x100 6 0x200 3 2) 0x200 8
      = some (0x002, 8, [1, 2, 3, 3, 4, 5, 6, 6]) := by decide

/-- V42. -/
theorem test_pad_halfwords :
    result 0x10C
        (buffer (bytes 0x100 [0x11, 0x11, 0x22, 0x22, 0x33, 0x33, 0x44, 0x44, 0x55, 0x55]) 0x100 10 0x200 5 1)
        0x200 16
      = some (0x002, 16, [0x11, 0x11, 0x22, 0x22, 0x33, 0x33, 0x44, 0x44, 0x55, 0x55, 0x55, 0x55, 0x55, 0x55,
          0x55, 0x55]) := by decide

/-- V41. -/
theorem test_crop_bytes :
    result 0x00D (buffer (bytes 0x200 [1, 2, 3, 3, 4, 5, 6, 6]) 0x200 8 0x300 3 2) 0x300 6
      = some (0x002, 6, [1, 2, 3, 4, 5, 6]) := by decide

/-- The end of P3: W = SW = 2, so CROP.E4 copies. -/
theorem test_crop_words :
    pixels 0x20D
        (buffer (bytes 0x5000 [0xFB, 0xFB, 0x00, 0xFF, 0x00, 0x00, 0xFB, 0xFF]) 0x5000 8 0x6000 2 1) 0x6000 2
      = some (0x002, 8, [0xFF00FBFB, 0xFFFB0000]) := by decide

/-- The palette of V70 at 0x100: word 5 is 0x7C00, every other word 0. -/
def paletteV70 : Memory := bytes 0x100 (List.replicate 11 0 ++ [0x7C] ++ List.replicate 500 0)

/-- The state of V70. -/
def stateV70 : State :=
  { buffer (paletteV70 ++ bytes 0x400 [0x05, 0x00]) 0x400 2 0x500 2 1 with auxAddr := 0x100, auxLen := 512 }

/-- The bytes of that palette. -/
theorem paletteV70_read (k : Nat) (hk : k < 512) :
    Memory.read stateV70.mem (0x100 + k) = some (if k = 11 then 0x7C else 0) := by
  show Memory.read (paletteV70 ++ bytes 0x400 [0x05, 0x00]) (0x100 + k) = _
  have h : Memory.read paletteV70 (0x100 + k) = some (if k = 11 then 0x7C else 0) := by
    rw [paletteV70, bytes, cellsAt_read, if_pos (Nat.le_add_right _ _), Nat.add_sub_cancel_left,
      List.getElem?_append, List.getElem?_append, List.getElem?_replicate, List.getElem?_replicate,
      List.length_append, List.length_replicate, List.length_singleton]
    rcases Nat.lt_trichotomy k 11 with h | rfl | h
    · rw [if_pos (by omega), if_pos h, if_pos h, if_neg (by omega)]
    · rfl
    · rw [if_neg (by omega), if_pos (by omega), if_neg (by omega)]
  rw [Memory.read_append, h]
  rfl

/-- The same state, once PAL8 is issued and its turn has come. -/
def issuedV70 : State := (stateV70.withFetchWord 32 0x10).takeTurn

theorem issuedV70_palette :
    issuedV70.mem.readPalette issuedV70.aux 256
      = some ((List.range 256).map fun k => if k = 5 then 0xFFFB0000 else 0xFF000000) := by
  rw [Memory.readPalette_eq_some]
  refine ⟨by rw [List.length_map, List.length_range], fun k hk => ?_⟩
  rw [List.getElem?_map, List.getElem?_range hk]
  have h : Memory.packedAt stateV70.mem (0x100 + 2 * k) = some (if k = 5 then 0x7C00 else 0) := by
    rw [Memory.packedAt, Memory.readNat, Memory.readBytes, paletteV70_read _ (by omega), Memory.readBytes,
      Nat.add_assoc, paletteV70_read _ (by omega)]
    by_cases h5 : k = 5
    · subst h5; rfl
    · rw [if_neg (by omega), if_neg (by omega), if_neg h5]; rfl
  show (Memory.packedAt stateV70.mem (0x100 + 2 * k)).map _ = _
  rw [h]
  by_cases h5 : k = 5
  · subst h5; rfl
  · rw [if_neg h5]; simp [h5]; rfl

theorem issuedV70_done :
    pal8Rule issuedV70
      = .done (issuedV70.commitOutput 8 [0x00, 0x00, 0xFB, 0xFF, 0x00, 0x00, 0x00, 0xFF]) :=
  pal8Rule_done.2 ⟨by decide, by decide, by decide, by decide, by decide, by decide, by decide, by decide,
    _, _, issuedV70_palette, by decide +kernel, rfl⟩

/-- The state PAL8 leaves, by V70. -/
def doneV70 : State := (issuedV70.commitOutput 8 [0x00, 0x00, 0xFB, 0xFF, 0x00, 0x00, 0x00, 0xFF]).succeed

/-- V70. -/
theorem test_pal8 :
    runs 0x10 stateV70 = some doneV70 ∧ doneV70.statusWord = 0x002 ∧ doneV70.outLen = 8 ∧
      doneV70.mem.readBytes 0x500 8 = some [0x00, 0x00, 0xFB, 0xFF, 0x00, 0x00, 0x00, 0xFF] := by
  refine ⟨?_, rfl, rfl, Memory.readBytes_writeBytes (k := 0) (by decide)⟩
  show after (finish issuedV70 (pal8Rule issuedV70)) = _
  rw [issuedV70_done]
  rfl

/-- The state of V75. -/
def stateV75 : State :=
  { buffer (bytes 0x100 [0xFF, 0x03, 0x00, 0x7C] ++ bytes 0x200 [0x21, 0x00]) 0x200 2 0x300 1 3 with
    auxAddr := 0x100, auxLen := 4 }

/-- V75. -/
theorem test_pal4 :
    pixels 0x11 stateV75 0x300 3 = some (0x002, 12, [0xFF00FBFB, 0xFFFB0000, 0x00000000]) := by decide

/-- V76: an index past the palette is opaque black. -/
theorem test_pal4_short_palette :
    pixels 0x11 { stateV75 with auxLen := 1, height := 2 } 0x300 2
      = some (0x002, 8, [0xFF000000, 0xFF000000]) := by decide

/-- STATUS, SEC_COUNT, and the first three lengths and addresses after the command word `w`. -/
def sections (w : Nat) (s : State) : Option (Nat × Nat × List (Nat × Nat)) :=
  (runs w s).map fun t =>
    (t.statusWord.toNat, t.secCount.toNat,
      [(t.secLen[0].toNat, t.secAddr[0].toNat), (t.secLen[1].toNat, t.secAddr[1].toNat),
        (t.secLen[2].toNat, t.secAddr[2].toNat)])

/-- V51: "UGAR", 3, 2, 0, 3 at 0x100. -/
def stateV51 : State :=
  buffer (bytes 0x100 [0x55, 0x47, 0x41, 0x52, 3, 0, 0, 0, 2, 0, 0, 0, 0, 0, 0, 0, 3, 0, 0, 0]) 0x100 25 0 0 0

/-- V51. -/
theorem test_hdr_gen :
    sections 0x018 stateV51 = some (0x002, 3, [(2, 0x114), (0, 0x116), (3, 0x116)]) := by decide

/-- The header of V61: "UGAR", 2, 30, 4 at 0x100. -/
def stateV61 : State :=
  buffer (bytes 0x100 [0x55, 0x47, 0x41, 0x52, 2, 0, 0, 0, 30, 0, 0, 0, 4, 0, 0, 0]) 0x100 52 0 0 0

/-- V61 and V62. -/
theorem test_hdr_npf_and_nbf :
    sections 0x818 stateV61 = some (0x002, 2, [(30, 0x110), (4, 0x130), (0, 0)]) ∧
    sections 0x418 stateV61 = some (0x206, 0, [(0, 0), (0, 0), (0, 0)]) := by decide

/-- V92. -/
theorem test_reset_reads :
    (State.reset.readOffset 0x000, State.reset.readOffset 0x004, State.reset.readOffset 0x008)
      = (0x00000003, 0x00000000, 0x00000000) := by decide

/-! ### Witnesses: for each statement with hypotheses, states and operands that meet them together -/

/-- The first condition of the list that holds is number `k`; none holds where `k` is the length. -/
def firstIs : Nat → List (Prop × BitVec 4) → Prop
  | 0, [] => True
  | _ + 1, [] => False
  | 0, c :: _ => c.1
  | k + 1, c :: cs => ¬ c.1 ∧ firstIs k cs

/-- The five clauses of R78: V9 and V10; V2, and the ends of the reserved ranges; V7 and V6; V4 and V3;
V8. -/
theorem witness_decodeRejectsByField :
    ((0x00001001 : Word).extractLsb' 12 20 ≠ 0 ∧ (0x80000018 : Word).extractLsb' 12 20 ≠ 0) ∧
    ((0x0000000F : Word).extractLsb' 12 20 = 0 ∧ ((0x0000000F : Word).extractLsb' 0 8).toNat = 0x0F ∧
      ((0x00000012 : Word).extractLsb' 0 8).toNat = 0x12 ∧ ((0x00000017 : Word).extractLsb' 0 8).toNat = 0x17 ∧
      ((0x00000019 : Word).extractLsb' 0 8).toNat = 0x19 ∧ ((0x000000FF : Word).extractLsb' 0 8).toNat = 0xFF) ∧
    ((0x0000040D : Word).extractLsb' 12 20 = 0 ∧ (0x0000040D : Word).extractLsb' 0 8 = 0x0D ∧
      (0x0000040D : Word).extractLsb' 10 2 ≠ 0) ∧
    ((0x0000030C : Word).extractLsb' 12 20 = 0 ∧ (0x0000030C : Word).extractLsb' 0 8 = 0x0C ∧
      (0x0000030C : Word).extractLsb' 10 2 = 0 ∧ (0x0000030C : Word).extractLsb' 8 2 = 3) ∧
    ((0x00000D18 : Word).extractLsb' 12 20 = 0 ∧ (0x00000D18 : Word).extractLsb' 0 8 = 0x18 ∧
      (0x00000D18 : Word).extractLsb' 8 2 ≠ 0) ∧
    ((0x00000C18 : Word).extractLsb' 12 20 = 0 ∧ (0x00000C18 : Word).extractLsb' 0 8 = 0x18 ∧
      (0x00000C18 : Word).extractLsb' 8 2 = 0 ∧ (0x00000C18 : Word).extractLsb' 10 2 = 3) ∧
    ((0x00000101 : Word).extractLsb' 12 20 = 0 ∧ ((0x00000101 : Word).extractLsb' 0 8).toNat = 0x01 ∧
      (0x00000101 : Word).extractLsb' 8 2 ≠ 0 ∧ (0x00000811 : Word).extractLsb' 10 2 ≠ 0) := by decide

/-- Of DecodeTableOfAllWords: V2's word is not in the table and not 0x00000C18. -/
theorem witness_decodeTableOfAllWords :
    (0x0000000F : Word) ∉ [(0x00000000 : Word), 0x00000001, 0x00000002, 0x00000003, 0x00000004, 0x00000005,
      0x00000008, 0x00000009, 0x0000000C, 0x0000010C, 0x0000020C, 0x0000000D, 0x0000010D, 0x0000020D,
      0x00000010, 0x00000011, 0x00000018, 0x00000418, 0x00000818] ∧
    (0x0000000F : Word) ≠ 0x00000C18 := by decide

theorem witness_stepRunsDecodedCommand :
    let s := State.reset.withCommand 0x0000010C
    s.phase = .pending ∧ s.nextTurn = .block ∧ decode s.cmd = .command (.pad .e2) := by decide

theorem witness_stepRaisesOnRejectedWord :
    let s := State.reset.withCommand 0x0000000F
    let t := State.reset.withCommand 0x00000C18
    (s.phase = .pending ∧ s.nextTurn = .block ∧ decode s.cmd = .rejected .reservedOpcode) ∧
      t.phase = .pending ∧ t.nextTurn = .block ∧ decode t.cmd = .rejected .unsupportedFormat := by decide

/-- Of IdleBlockChangesNothing, CmdWriteIssuesCommand, HostReadsRegisterMap. -/
theorem witness_idle : State.reset.phase = .idle ∧ State.reset.nextTurn = .block := by decide

theorem witness_pollingKeepsCommandPending :
    let s := State.reset.issue 0x05
    s.phase = .pending ∧ s.done = false ∧ s.err = false ∧ s.errCode = 0 := by decide

/-- Of StatusAfterEveryCommand, SuccessStatus, CommandsKeepOperands: a command that succeeds. -/
theorem witness_success :
    exec .nop State.reset = .next { State.reset with done := true } ∧
      ({ State.reset with done := true } : State).err = false := ⟨rfl, rfl⟩

/-- Of RaiseChangesOnlyStatus: SWID with WIDTH = 2^31 + 1. -/
theorem witness_raiseChangesOnlyStatus :
    let s := { State.reset with width := 0x80000001 }
    exec .swid s = .next (raised s 3) ∧ (raised s 3).err = true := ⟨rfl, rfl⟩

/-- Of InvalidDimensionsExactly and SwidRule: both sides of the bound. -/
theorem witness_widthBound :
    (Instr.pad .e4).wellFormed = true ∧
      2 ^ 31 < ({ State.reset with width := 0x80000001 } : State).width.toNat ∧
      ¬ 2 ^ 31 < ({ State.reset with width := 0x80000000 } : State).width.toNat := by decide

/-- Of CommandsFaultOnlyOnUnwrittenBytes: the least `MEM`, every byte of it written. -/
theorem witness_everyByteWritten :
    let s := { State.reset with memExp := 0, mem := bytes 0 (List.replicate 4096 0) }
    ∀ a, a < s.memSize → (s.mem.read a).isSome = true := by
  intro s a ha
  have hs : s.memSize = 4096 := rfl
  show (Memory.read (cellsAt 0 (List.replicate 4096 0)) a).isSome = true
  rw [cellsAt_read, if_pos (Nat.zero_le a), List.getElem?_replicate, if_pos (by omega)]
  rfl

/-- Of OnlyOwnCommandsWriteResults: for each clause a command it is about, completing. -/
theorem witness_onlyOwnCommandsWriteResults :
    ((Instr.swid ∉ [Instr.unpk5551, .unpk555, .pack5551, .pack555]) ∧ Instr.pack555 ≠ .swid ∧
      (∀ f, Instr.swid ≠ .hdr f) ∧ Instr.hdr .npf ∉ [Instr.conv5551, .conv555, .pal8, .pal4] ∧
      (∀ e, Instr.hdr .npf ≠ .pad e) ∧ (∀ e, Instr.hdr .npf ≠ .crop e)) ∧
    (after (exec .swid State.reset)).isSome = true ∧ (after (exec .pack555 State.reset)).isSome = true ∧
      (after (exec (.hdr .npf) stateV61)).isSome = true := by
  refine ⟨⟨by decide, by decide, ?_, by decide, ?_, ?_⟩, by decide⟩ <;> intro x <;> cases x <;> decide

/-- Of CommandsKeepTheirInputs: a command that completes, and the ends of a range it reads. -/
theorem witness_commandsKeepTheirInputs :
    let s := buffer (bytes 0x100 [0x00, 0x80, 0x00, 0x7C]) 0x100 4 0x200 2 1
    (after (exec .conv555 s)).isSome = true ∧ (0x100, 4) ∈ inputs .conv555 s ∧
      (0x100 ≤ 0x100 ∧ 0x103 < 0x100 + 4) := by decide

theorem witness_onlyPalettesReadAux : Instr.crop .e1 ≠ .pal8 ∧ Instr.crop .e1 ≠ .pal4 := by decide

theorem witness_registerCommandsNeverReachMem :
    Instr.swid ∈ [Instr.nop, .unpk5551, .unpk555, .pack5551, .pack555, .swid] := by decide

/-- Of UncheckedMagicIsNotRead: V67's CTRL, and a `MEM` without the magic bytes. -/
theorem witness_uncheckedMagicIsNotRead :
    let s := { stateV51 with ctrl := 2 }
    s.ctrl.getLsbD 0 = false ∧ s.mem ≠ s.mem.drop 4 ∧
      ∀ x, ¬ (s.srcAddr.toNat ≤ x ∧ x < s.srcAddr.toNat + 4) → Memory.read (s.mem.drop 4) x = s.mem.read x := by
  refine ⟨by decide, by decide, fun x hx => ?_⟩
  show Memory.read (cellsAt 0x104 [3, 0, 0, 0, 2, 0, 0, 0, 0, 0, 0, 0, 3, 0, 0, 0]) x
    = Memory.read
        (bytes 0x100 [0x55, 0x47, 0x41, 0x52] ++ cellsAt 0x104 [3, 0, 0, 0, 2, 0, 0, 0, 0, 0, 0, 0, 3, 0, 0, 0]) x
  have h : ¬ (0x100 ≤ x ∧ x < 0x104) := hx
  rw [Memory.read_append, bytes, cellsAt_read [0x55, 0x47, 0x41, 0x52] 0x100 x]
  by_cases h0 : 0x100 ≤ x
  · rw [if_pos h0, List.getElem?_eq_none (by simp; omega)]; rfl
  · rw [if_neg h0]; rfl

/-- Of the first law of ColourRoundTripLaws: alpha 0 and alpha 255 (S4). -/
theorem witness_colourRoundTripLaws :
    (0x00FFFFFF : Word).extractLsb' 24 8 = 0 ∧ (0xFF808080 : Word).extractLsb' 24 8 = 255 := by decide

theorem witness_nopRule : (0x00000100 : Word).extractLsb' 0 8 = 0 ∧ (0x00000100 : Word) ≠ 0 := by decide

theorem witness_storageWidthIsLeastPower : 1 ≤ 200 ∧ 200 ≤ 2 ^ 8 := by decide

/-- Of Conv5551Rule and Conv555Rule: V39d, an address past the end, V39a, V39c, V39b, V37 before and after
the source is written. -/
theorem witness_convRule :
    let s := buffer (bytes 0x100 [0x00, 0x80, 0x00, 0x7C]) 0x100 4 0x200 2 1
    let checks := fun s : State => copyChecks s (2 * N s) (4 * N s)
    firstIs 0 (checks { s with width := 0x80000001 }) ∧ firstIs 1 (checks { s with srcAddr := 0xFFFFD }) ∧
    firstIs 2 (checks { s with srcLen := 3 }) ∧ firstIs 3 (checks { s with dstAddr := 0xFFFFC }) ∧
    firstIs 4 (checks { s with dstAddr := 0xFC }) ∧ firstIs 5 (checks s) ∧
    Written s s.srcAddr.toNat (2 * N s) ∧ ¬ Written { s with mem := [] } s.srcAddr.toNat (2 * N s) := by
  simp only [firstIs, copyChecks, InMem, Apart, Written]
  and_intros <;> decide

/-- Of PadRule: each check in turn, and V40 before and after the source is written. -/
theorem witness_padRule :
    let s := buffer (bytes 0x100 [1, 2, 3, 4, 5, 6]) 0x100 6 0x200 3 2
    let checks := fun s : State => copyChecks s (1 * s.width.toNat * s.height.toNat) (1 * SW s * s.height.toNat)
    ESize.e1 ≠ .reserved ∧
    firstIs 0 (checks { s with width := 0x80000001 }) ∧ firstIs 1 (checks { s with srcAddr := 0xFFFFF }) ∧
    firstIs 2 (checks { s with srcLen := 5 }) ∧ firstIs 3 (checks { s with dstAddr := 0xFFFF9 }) ∧
    firstIs 4 (checks { s with dstAddr := 0x105 }) ∧ firstIs 5 (checks s) ∧
    Written s s.srcAddr.toNat (1 * 3 * 2) ∧ ¬ Written { s with mem := [] } s.srcAddr.toNat (1 * 3 * 2) ∧
    (1 < s.height.toNat ∧ 3 < SW s) := by
  simp only [firstIs, copyChecks, InMem, Apart, Written]
  and_intros <;> decide

/-- Of CropRule: each check in turn, and V41 before and after the source is written. -/
theorem witness_cropRule :
    let s := buffer (bytes 0x200 [1, 2, 3, 3, 4, 5, 6, 6]) 0x200 8 0x300 3 2
    let checks := fun s : State => copyChecks s (1 * SW s * s.height.toNat) (1 * s.width.toNat * s.height.toNat)
    ESize.e1 ≠ .reserved ∧
    firstIs 0 (checks { s with width := 0x80000001 }) ∧ firstIs 1 (checks { s with srcAddr := 0xFFFFF }) ∧
    firstIs 2 (checks { s with srcLen := 7 }) ∧ firstIs 3 (checks { s with dstAddr := 0xFFFFB }) ∧
    firstIs 4 (checks { s with dstAddr := 0x207 }) ∧ firstIs 5 (checks s) ∧
    (∀ y < 2, Written s (s.srcAddr.toNat + 1 * (y * SW s)) (1 * 3)) ∧
    ¬ (∀ y < 2, Written { s with mem := [] } (s.srcAddr.toNat + 1 * (y * SW s)) (1 * 3)) ∧
    (1 < s.height.toNat ∧ 2 < s.width.toNat) := by
  simp only [firstIs, copyChecks, InMem, Apart, Written]
  and_intros <;> decide

/-- Of CropUndoesPad: V40, then V41's destination. -/
theorem witness_cropUndoesPad :
    let s := buffer (bytes 0x100 [1, 2, 3, 4, 5, 6]) 0x100 6 0x200 3 2
    ESize.e1 ≠ .reserved ∧ (after (exec (.pad .e1) s)).map (fun t => (t.err, t.outLen.toNat)) = some (false, 8) ∧
      InMem s 0x300 (1 * 3 * 2) ∧ Apart 0x300 (1 * 3 * 2) 0x200 8 := by
  simp only [InMem, Apart]
  decide

/-- Of HdrRule, before the count is read: V68, V52, an unwritten magic, V66, an unwritten count. -/
theorem witness_hdrRule_magic :
    let s := stateV51
    Fmt.gen ≠ .reserved ∧ ¬ InMem s 0xFFFF8 16 ∧ InMem s s.srcAddr.toNat 25 ∧ ¬ (25 < 8) ∧ (4 < 8) ∧
    (s.ctrl.getLsbD 0 = true ∧ ¬ Written { s with mem := [] } s.srcAddr.toNat 4) ∧
    (Written s s.srcAddr.toNat 4 ∧ s.mem.readNat s.srcAddr.toNat 4 = some 0x52414755 ∧
      Memory.readNat (bytes 0x100 [0x55, 0x47, 0x41, 0x53]) 0x100 4 ≠ some 0x52414755) ∧
    (Written { s with mem := s.mem.take 4 } s.srcAddr.toNat 4 ∧
      ¬ Written { s with mem := s.mem.take 4 } (s.srcAddr.toNat + 4) 4) := by
  simp only [InMem, Written]
  decide

/-- Of HdrRule, from the count on: V53, V54, V56, V57, an unwritten table, V51's lengths, V58, V59 and
V51. -/
theorem witness_hdrRule_table :
    let s := stateV51
    s.mem.readNat (s.srcAddr.toNat + 4) 4 = some 3 ∧ (0 = 0 ∨ 16 < 0) ∧ (17 = 0 ∨ 16 < 17) ∧ ¬ (16 = 0 ∨ 16 < 16) ∧
    (Fmt.nbf ≠ .gen ∧ 1 ≠ 2) ∧ 12 < 8 + 4 * 2 ∧ ¬ (25 < 8 + 4 * 3) ∧
    ¬ Written { s with mem := s.mem.take 8 } (s.srcAddr.toNat + 8) (4 * 3) ∧
    (∀ k < 3, s.mem.readNat (s.srcAddr.toNat + 8 + 4 * k) 4 = [2, 0, 3][k]?) ∧
    16 - 12 < occupiedBefore .gen [5] 1 ∧ (s.ctrl.getLsbD 1 = true ∧ occupiedBefore .gen [3] 1 < 16 - 12) ∧
    ¬ (25 - 20 < occupiedBefore .gen [2, 0, 3] 3) ∧ ¬ (occupiedBefore .gen [2, 0, 3] 3 < 25 - 20) := by
  simp only [Written]
  decide

/-- Of HeaderRoundTrip: the lengths of S5, and V61's. -/
theorem witness_headerRoundTrip :
    (Fmt.gen ≠ .reserved ∧ (∀ l ∈ [2, 0, 3], l < 2 ^ 32) ∧
      stateV51.srcLen.toNat = 8 + 4 * 3 + occupiedBefore .gen [2, 0, 3] 3 ∧
      stateV51.srcAddr.toNat + stateV51.srcLen.toNat ≤ stateV51.memSize) ∧
    (Fmt.npf ≠ .reserved ∧ Fmt.npf ≠ .gen ∧ (∀ l ∈ [30, 4], l < 2 ^ 32) ∧
      stateV61.srcLen.toNat = 8 + 4 * 2 + occupiedBefore .npf [30, 4] 2 ∧
      stateV61.srcAddr.toNat + stateV61.srcLen.toNat ≤ stateV61.memSize) := by decide

/-- Of Pal8Rule: each check in turn, V71, V74 and V73 among them, and V70. -/
theorem witness_pal8Rule_checks :
    let s := stateV70
    firstIs 0 (pal8Checks { s with width := 0x80000001 }) ∧ firstIs 1 (pal8Checks { s with srcAddr := 0xFFFFF }) ∧
    firstIs 2 (pal8Checks { s with auxLen := 510 }) ∧ firstIs 3 (pal8Checks { s with srcLen := 1 }) ∧
    firstIs 4 (pal8Checks { s with auxAddr := 0xFFE01 }) ∧ firstIs 5 (pal8Checks { s with dstAddr := 0xFFFF9 }) ∧
    firstIs 6 (pal8Checks { s with dstAddr := 0x401 }) ∧ firstIs 6 (pal8Checks { s with dstAddr := 0x2FE }) ∧
    firstIs 7 (pal8Checks s) := by
  simp only [firstIs, pal8Checks, InMem, Apart]
  and_intros <;> decide

/-- Of Pal8Rule: V70 before and after the palette is written. -/
theorem witness_pal8Rule_written :
    ¬ Written { stateV70 with mem := [] } stateV70.auxAddr.toNat 512 ∧
      Written stateV70 stateV70.auxAddr.toNat 512 ∧ Written stateV70 stateV70.srcAddr.toNat (N stateV70) := by
  refine ⟨fun h => absurd (h 0 (by decide)) (by decide), fun k hk => ?_, by unfold Written; decide +kernel⟩
  show (Memory.read stateV70.mem (0x100 + k)).isSome = true
  rw [paletteV70_read k hk]
  rfl

/-- Of Pal4Rule: each check in turn (V78 among them), V75 before and after the palette is written, and an
index of each of the three kinds (V75, V76). -/
theorem witness_pal4Rule :
    let s := stateV75
    let checks := fun s : State => pal4Checks s ((N s + 1) / 2) (pow2ceil s.auxLen.toNat)
    firstIs 0 (checks { s with width := 0x80000001 }) ∧ firstIs 1 (checks { s with srcAddr := 0xFFFFF }) ∧
    firstIs 2 (checks { s with width := 3, height := 1, srcLen := 1 }) ∧
    firstIs 3 (checks { s with auxAddr := 0xFFFFD }) ∧ firstIs 4 (checks { s with dstAddr := 0xFFFF5 }) ∧
    firstIs 5 (checks { s with dstAddr := 0x201 }) ∧ firstIs 5 (checks { s with dstAddr := 0x103 }) ∧
    firstIs 6 (checks s) ∧ Written s s.auxAddr.toNat (2 * min 15 (4 / 2)) ∧
    Written s s.srcAddr.toNat ((3 + 1) / 2) ∧ ¬ Written { s with mem := [] } s.auxAddr.toNat (2 * 2) ∧
    (s.mem.read (s.srcAddr.toNat + 2 / 2) = some 0x00 ∧ s.mem.read (s.srcAddr.toNat + 1 / 2) = some 0x21) ∧
    (1 ≤ 0x21 / 16 ∧ 0x21 / 16 ≤ 2) ∧ min 15 (pow2ceil 1 / 2) < 0x21 % 16 := by
  simp only [firstIs, pal4Checks, InMem, Apart, Written]
  and_intros <;> decide

/-- Of PaletteAlpha: V75, with index 0 and others. -/
theorem witness_paletteAlpha_pal4 :
    (after (exec .pal4 stateV75)).map (·.err) = some false ∧ N stateV75 = 3 := by decide

/-- Of PaletteAlpha: V70. -/
theorem witness_paletteAlpha_pal8 :
    exec .pal8 issuedV70 = .next doneV70 ∧ doneV70.err = false ∧ N issuedV70 = 2 := by
  refine ⟨?_, rfl, by decide⟩
  show finish issuedV70 (pal8Rule issuedV70) = _
  rw [issuedV70_done]
  rfl

theorem witness_hostWritesRegister : State.reset.phase = .idle ∧ Reg.ctrl ∈ writable ∧ Reg.din ∈ writable := by
  decide

/-- Of HostWriteToReadOnlyIgnored: STATUS, and the first and the last offset of the range. -/
theorem witness_hostWriteToReadOnlyIgnored :
    State.reset.phase = .idle ∧ 0x004 % 4 = 0 ∧
      (0x02C % 4 = 0 ∧ 0x02C ≤ 0x02C ∧ 0x02C < 0x100) ∧ (0x0FC % 4 = 0 ∧ 0x02C ≤ 0x0FC ∧ 0x0FC < 0x100) := by
  decide

/-- Of BusyAndMisformedAccessesRefused: V91's state, and a form of each wrong kind. -/
theorem witness_busyAndMisformedAccessesRefused :
    (State.reset.issue 0x00).phase = .pending ∧ HostAccess.writeReg 0x008 4 0x00 ≠ .readReg 0x004 4 ∧
      HostAccess.readReg 0x004 2 ≠ .readReg 0x004 4 ∧ (2 ≠ 4 ∨ 0x004 % 4 ≠ 0) ∧ (4 ≠ 4 ∨ 0x006 % 4 ≠ 0) := by
  decide

/-- Of HostMemoryReadAfterWrite: each width, at the top of `MEM` and at an odd address. -/
theorem witness_hostMemoryReadAfterWrite :
    State.reset.phase = .idle ∧ InMem State.reset 0xFFFFF 1 ∧ InMem State.reset 0xFFFFE 2 ∧
      InMem State.reset 0xFFFFC 4 ∧ InMem State.reset 0x00101 4 := by
  simp only [InMem]
  decide

/-- Of BytesStayWritten: a warm reset with a byte written. -/
theorem witness_bytesStayWritten :
    let s := { State.reset with mem := bytes 0x100 [0x55], agenda := [.reset] }
    (after (step s)).isSome = true ∧ s.nextTurn ≠ .power ∧ (s.mem.read 0x100).isSome = true := by decide

/-- Of MarksSetAndKept: a host read of an unwritten byte faults, V91 is refused. -/
theorem witness_marksSetAndKept :
    let s := { State.reset with agenda := [.host (.readMem 0x100 1)] }
    let t := { State.reset.issue 0x00 with agenda := [.host (.writeReg 0x008 4 0x00)] }
    (s.nextTurn ≠ .reset ∧ s.nextTurn ≠ .power ∧ step s = .fault .unwrittenByte) ∧
      t.nextTurn ≠ .reset ∧ t.nextTurn ≠ .power ∧ step t = .refused .hostBusy :=
  ⟨⟨by decide, by decide, rfl⟩, by decide, by decide, rfl⟩

theorem witness_memSizeLegalAndFixed : (after (step State.reset)).isSome = true := by decide

/-- Of EveryStepKeepsTheInvariant: the state of V51, with HDR.GEN issued. -/
theorem witness_everyStepKeepsTheInvariant :
    Invariant (stateV51.withCommand 0x018) ∧ (after (step (stateV51.withCommand 0x018))).isSome = true := by
  refine ⟨⟨by decide, by decide, by decide, by decide, by decide, ?_, by decide⟩, by decide⟩
  intro i _
  revert i
  decide

end Sys2Proof.Tests
end

section
/-! The scope statements (00_scope.md): `pow2ceil` (R10) is the least power of two, and MEM_SIZE (R7) is a
legal size that no turn of any agent changes. -/

namespace Sys2Proof.Machine

/-! ### `pow2ceil` -/

@[simp] theorem pow2ceil_two_pow (k : Nat) : pow2ceil (2 ^ k) = 2 ^ k :=
  Nat.le_antisymm (pow2ceil_least (Nat.le_refl _)) (le_pow2ceil _)

/-- The leastness of `pow2ceil n`, said of its exponent (R10). -/
theorem pow2ceil_least_exponent {n : Nat} (h : 1 ≤ n) :
    ∃ k, pow2ceil n = 2 ^ k ∧ n ≤ 2 ^ k ∧ ∀ j, n ≤ 2 ^ j → k ≤ j := by
  obtain ⟨k, hk, hn, -⟩ := pow2ceil_bounds (Nat.ne_of_gt h)
  refine ⟨k, hk, hn, fun j hj => ?_⟩
  have hle : 2 ^ k ≤ 2 ^ j := hk ▸ pow2ceil_least hj
  exact (Nat.pow_le_pow_iff_right (by decide)).1 hle

/-! ### MEM_SIZE -/

/-- Every size the field `memExp` can hold is one R7 allows. -/
theorem State.memSize_legal (s : State) : ∃ k, s.memSize = 2 ^ k ∧ 12 ≤ k ∧ k ≤ 31 := by
  have hexp : s.memExp.val < 20 := s.memExp.isLt
  exact ⟨12 + s.memExp.val, rfl, by omega, by omega⟩

@[simp] theorem State.hostSet_memExp (s : State) (r : Reg) (v : Word) :
    (s.hostSet r v).memExp = s.memExp := by cases r <;> rfl

@[simp] theorem State.writeOffset_memExp (s : State) (off : Nat) (v : Word) :
    (s.writeOffset off v).memExp = s.memExp := by
  unfold State.writeOffset
  split
  · exact s.hostSet_memExp _ v
  · rfl

theorem Commits.memExp_eq {s t : State} (h : Commits s t) : t.memExp = s.memExp := by
  cases h <;> rfl

theorem exec_keeps_memExp {i : Instr} {s t : State} (h : exec i s = .next t) : t.memExp = s.memExp := by
  obtain ⟨e, rfl⟩ | ⟨u, hu, rfl⟩ := exec_next h
  · exact s.fail_memExp e
  · rw [State.succeed_memExp, hu.memExp_eq]

theorem hostAccess_keeps_memExp {a : HostAccess} {s t : State} (h : hostAccess a s = .next t) :
    t.memExp = s.memExp := by
  obtain ⟨v, rfl⟩ | ⟨-, off, v, rfl⟩ | ⟨-, addr, n, v, -, rfl⟩ := hostAccess_next h
  · rfl
  · exact s.writeOffset_memExp off v
  · rfl

/-- No turn of the host, the reset input, power or the block changes the exponent of MEM_SIZE. -/
theorem step_keeps_memExp {s t : State} (h : step s = .next t) : t.memExp = s.memExp := by
  obtain ⟨a, -, ha⟩ | ⟨-, rfl⟩ | ⟨-, rfl⟩ | ⟨-, -, rfl⟩ | ⟨-, -, ⟨i, -, hi⟩ | ⟨r, -, rfl⟩⟩ := step_next h
  · rw [hostAccess_keeps_memExp ha, State.takeTurn_memExp]
  · rw [State.assertReset_memExp, State.takeTurn_memExp]
  · rw [State.cyclePower_memExp, State.takeTurn_memExp]
  · exact s.takeTurn_memExp
  · rw [exec_keeps_memExp hi, State.takeTurn_memExp]
  · rw [State.fail_memExp, State.takeTurn_memExp]

end Sys2Proof.Machine

namespace Sys2Proof

open Machine

/-- Settles O34: the exponent that `pow2ceil_bounds` gives is the least one, by `pow2ceil_least`. -/
theorem storageWidthIsLeastPower : Obligations.StorageWidthIsLeastPower := by
  unfold Obligations.StorageWidthIsLeastPower
  exact ⟨pow2ceil_zero, pow2ceil_two_pow, fun _ hn => pow2ceil_least_exponent hn⟩

/-- Settles O53: `memExp` has 20 values, and `step_next` names every way a step can answer; none writes
`memExp`. -/
theorem memSizeLegalAndFixed : Obligations.MemSizeLegalAndFixed := by
  unfold Obligations.MemSizeLegalAndFixed
  exact ⟨State.memSize_legal, fun _ _ h => State.memSize_congr (step_keeps_memExp h)⟩

end Sys2Proof
end

section
/-! The invariant (10_state.md): it holds at reset, and each turn of each agent keeps it. -/

namespace Sys2Proof

open Machine

/-! ### The invariant: each update keeps it -/

theorem Invariant.takeTurn {s : State} (h : Invariant s) : Invariant s.takeTurn :=
  ⟨h.mem, h.status, h.swidth, h.outLen, h.sections⟩

theorem Invariant.reply {s : State} (h : Invariant s) (v : Option Word) : Invariant { s with reply := v } :=
  ⟨h.mem, h.status, h.swidth, h.outLen, h.sections⟩

theorem Invariant.issue {s : State} (h : Invariant s) (w : Word) : Invariant (s.issue w) :=
  ⟨h.mem, by simp [statusWf], h.swidth, h.outLen, h.sections⟩

theorem Invariant.succeed {s : State} (h : Invariant s) : Invariant s.succeed :=
  ⟨h.mem, by simp [statusWf], h.swidth, h.outLen, h.sections⟩

theorem statusWf_fail (s : State) (e : ErrorCode) : statusWf (s.fail e) = true := by
  cases e <;> rfl

theorem Invariant.fail {s : State} (h : Invariant s) (e : ErrorCode) : Invariant (s.fail e) :=
  ⟨h.mem, statusWf_fail s e, h.swidth, h.outLen, h.sections⟩

theorem Invariant.hostSet {s : State} (h : Invariant s) (r : Reg) (v : Word) : Invariant (s.hostSet r v) := by
  cases r with
  | cmd => exact h.issue v
  | _ => exact ⟨h.mem, h.status, h.swidth, h.outLen, h.sections⟩

theorem Invariant.writeOffset {s : State} (h : Invariant s) (off : Nat) (v : Word) :
    Invariant (s.writeOffset off v) := by
  unfold State.writeOffset
  split
  · exact h.hostSet _ v
  · exact h

theorem Invariant.writeNat {s : State} (h : Invariant s) {a n : Nat} (hm : s.inMem a n = true) (v : Nat) :
    Invariant { s with mem := s.mem.writeNat a n v } := by
  have hin : leBytes n v = [] ∨ a + (leBytes n v).length ≤ s.memSize := by
    rw [← List.length_eq_zero_iff, leBytes_length]
    exact (s.inMem_iff a n).1 hm
  exact ⟨Memory.wf_writeBytes h.mem hin, h.status, h.swidth, h.outLen, h.sections⟩

/-- The reset input gives every register its reset value and keeps `MEM`, so `MEM` alone decides. -/
theorem invariant_assertReset {s : State} (h : Memory.wf s.memSize s.mem = true) : Invariant s.assertReset where
  mem := h
  status := show statusWf State.reset = true by decide
  swidth := show swidthWf State.reset = true by decide
  outLen := Nat.zero_le _
  sections := by
    refine ⟨Nat.zero_le _, fun i _ => ?_, fun i => ?_⟩ <;> simp [State.reset]

theorem invariant_reset : Invariant State.reset :=
  invariant_assertReset (s := State.reset) (Memory.wf_nil _)

theorem invariant_cyclePower (s : State) : Invariant s.cyclePower :=
  invariant_assertReset (s := { s with mem := [] }) (Memory.wf_nil _)

/-! ### The invariant: what a command commits keeps it -/

/-- The storage width of a legal WIDTH fits the register, and so stands there as the power it is (R34). -/
theorem swidthWf_of_pow2ceil {s : State} {n : Nat} (hs : s.swidth = BitVec.ofNat 32 (pow2ceil n))
    (hn : n ≤ maxWidth) : swidthWf s = true := by
  simp only [swidthWf, Bool.or_eq_true, decide_eq_true_eq, hs]
  by_cases h0 : n = 0
  · left; simp [h0]
  · right
    obtain ⟨k, hk, -, -⟩ := pow2ceil_bounds h0
    have hle : pow2ceil n ≤ 2 ^ 31 := pow2ceil_least hn
    rw [BitVec.toNat_ofNat, Nat.mod_eq_of_lt (by omega), hk, Nat.log2_two_pow]

theorem Invariant.commitOutput {s : State} (h : Invariant s) {out : Nat} {bytes : List Byte}
    (hl : bytes.length = out) (hm : s.inMem s.dst out = true) : Invariant (s.commitOutput out bytes) := by
  have hfit : out = 0 ∨ s.dst + out ≤ s.memSize := (s.inMem_iff _ _).1 hm
  have hin : bytes = [] ∨ s.dst + bytes.length ≤ s.memSize := by
    rwa [← List.length_eq_zero_iff, hl]
  have hout : (BitVec.ofNat 32 out).toNat ≤ s.memSize := by
    have := Nat.mod_le out (2 ^ 32)
    rw [BitVec.toNat_ofNat]
    omega
  exact ⟨Memory.wf_writeBytes h.mem hin, h.status, h.swidth, hout, h.sections⟩

/-- Every section starts inside the source buffer, and so inside MEM (R155). -/
theorem sectionsWf_commitSections {s : State} {f : Fmt} {lens : List Nat}
    (hc : countAllowed f lens.length = true) (hm : s.srcInMem = true)
    (hs : tableBytes lens.length + (occupied f lens).sum ≤ s.srcLen.toNat) :
    sectionsWf (s.commitSections (s.src + tableBytes lens.length) lens (occupied f lens)) := by
  have hcount : lens.length ≤ 16 := by
    simp only [countAllowed, Bool.and_eq_true, decide_eq_true_eq] at hc
    exact hc.1.2
  have hcw : (BitVec.ofNat 32 lens.length).toNat = lens.length := by
    rw [BitVec.toNat_ofNat]; omega
  have hsrc : s.src + s.srcLen.toNat ≤ s.memSize := by
    have hin := (s.inMem_iff _ _).1 hm
    have : 8 ≤ tableBytes lens.length := Nat.le_add_right _ _
    omega
  refine ⟨?_, fun i hi => ?_, fun i => ?_⟩
  · rw [State.commitSections_secCount, hcw]
    exact hcount
  · rw [State.commitSections_secCount, hcw] at hi
    constructor
    · simp [List.getElem?_eq_none hi]
    · simp [show ¬ i.val < lens.length by omega]
  · have hpre : ((occupied f lens).take i.val).sum ≤ (occupied f lens).sum :=
      (List.take_sublist _ _).sum_le_sum (by simp)
    have hsize : (s.commitSections (s.src + tableBytes lens.length) lens (occupied f lens)).memSize
        = s.memSize := rfl
    simp only [State.commitSections_secAddr, hsize]
    have hmod := Nat.mod_le (s.src + tableBytes lens.length + ((occupied f lens).take i.val).sum) (2 ^ 32)
    by_cases hi : i.val < lens.length
    · simp only [Fin.getElem_fin, Vector.getElem_ofFn, hi, if_true, BitVec.toNat_ofNat]
      omega
    · simp [hi]

theorem Invariant.commits {s u : State} (h : Invariant s) (hu : Commits s u) : Invariant u := by
  cases hu with
  | nothing => exact h
  | dout v => exact ⟨h.mem, h.status, h.swidth, h.outLen, h.sections⟩
  | swidth hw => exact ⟨h.mem, h.status, swidthWf_of_pow2ceil rfl hw, h.outLen, h.sections⟩
  | output out bytes hl hm => exact h.commitOutput hl hm
  | sections f lens hc hm hs =>
    exact ⟨h.mem, h.status, h.swidth, h.outLen, sectionsWf_commitSections hc hm hs⟩

theorem Invariant.exec {s t : State} {i : Instr} (h : Invariant s) (ht : exec i s = .next t) : Invariant t := by
  obtain ⟨e, rfl⟩ | ⟨u, hu, rfl⟩ := exec_next ht
  · exact h.fail e
  · exact (h.commits hu).succeed

theorem Invariant.hostAccess {s t : State} {a : HostAccess} (h : Invariant s)
    (ht : hostAccess a s = .next t) : Invariant t := by
  obtain ⟨v, rfl⟩ | ⟨-, off, v, rfl⟩ | ⟨-, addr, n, v, hm, rfl⟩ := hostAccess_next ht
  · exact h.reply _
  · exact h.writeOffset off v
  · exact h.writeNat hm v

theorem Invariant.step {s t : State} (h : Invariant s) (ht : step s = .next t) : Invariant t := by
  obtain ⟨a, -, ha⟩ | ⟨-, rfl⟩ | ⟨-, rfl⟩ | ⟨-, -, rfl⟩ | ⟨-, -, ⟨i, -, hi⟩ | ⟨r, -, rfl⟩⟩ := step_next ht
  · exact h.takeTurn.hostAccess ha
  · exact invariant_assertReset h.takeTurn.mem
  · exact invariant_cyclePower _
  · exact h.takeTurn
  · exact h.takeTurn.exec hi
  · exact h.takeTurn.fail _

/-- Settles O55: `step_next` names every way a step can answer, and each of them keeps the invariant. -/
theorem everyStepKeepsTheInvariant : Obligations.EveryStepKeepsTheInvariant := by
  unfold Obligations.EveryStepKeepsTheInvariant
  exact fun _ _ h ht => h.step ht

/-- Settles O54: the reset state is one the reset input leaves, with `MEM` unwritten. -/
theorem invariantHoldsAtReset : Obligations.InvariantHoldsAtReset := by
  unfold Obligations.InvariantHoldsAtReset
  exact invariant_reset

end Sys2Proof
end

section
/-! What commands change and what they read (10_state.md): operands, results, inputs, AUX_ADDR and AUX_LEN. -/

namespace Sys2Proof.Machine

open Spec

/-! ### The rule of each command -/

/-- The rule of command `i` (its R number stands at the rule), before it ends as `finish` says. -/
def ruleOf (i : Instr) (s : State) : Verdict :=
  match i with
  | .nop => .done s
  | .unpk5551 => .done { s with dout := unpack s.dinWord true }
  | .unpk555 => .done { s with dout := unpack s.dinWord false }
  | .pack5551 => .done { s with dout := (pack s.din true).setWidth 32 }
  | .pack555 => .done { s with dout := (pack s.din false).setWidth 32 }
  | .swid => swidRule s
  | .conv5551 => convRule true s
  | .conv555 => convRule false s
  | .pad e => if e.legal then padRule (elemBytes e) s else .raised .illegalCommand
  | .crop e => if e.legal then cropRule (elemBytes e) s else .raised .illegalCommand
  | .pal8 => pal8Rule s
  | .pal4 => pal4Rule s
  | .hdr f => if f.legal then hdrRule f s else .raised .unsupportedFormat

theorem exec_eq_finish (i : Instr) (s : State) : exec i s = finish s (ruleOf i s) := by
  cases i with
  | pad e => simp only [exec, execPad, ruleOf, apply_ite (finish s)]; rfl
  | crop e => simp only [exec, execCrop, ruleOf, apply_ite (finish s)]; rfl
  | hdr f => simp only [exec, execHdr, ruleOf, apply_ite (finish s)]; rfl
  | _ => rfl

/-- `s` with the result registers and `MEM`, where command `i` may write them (R33 to R38, R50), as in `u`. -/
def State.withResults (s : State) (i : Instr) (u : State) : State :=
  match i with
  | .nop => s
  | .unpk5551 | .unpk555 | .pack5551 | .pack555 => { s with dout := u.dout }
  | .swid => { s with swidth := u.swidth }
  | .conv5551 | .conv555 | .pad _ | .crop _ | .pal8 | .pal4 => { s with mem := u.mem, outLen := u.outLen }
  | .hdr _ => { s with secCount := u.secCount, secLen := u.secLen, secAddr := u.secAddr }

theorem State.withResults_succeed (s : State) (i : Instr) (u : State) :
    s.withResults i u.succeed = s.withResults i u := by cases i <;> rfl

theorem State.withResults_fail (s : State) (i : Instr) (e : ErrorCode) :
    s.withResults i (s.fail e) = s := by cases i <;> rfl

theorem copyRule_withResults {s u : State} {need n out : Nat} {elem : Nat → Option (List Byte)}
    (h : copyRule s need n out elem = .done u) : u = { s with mem := u.mem, outLen := u.outLen } := by
  obtain ⟨-, -, -, -, -, bytes, -, rfl⟩ := copyRule_done.1 h
  rfl

/-- A rule that is done leaves everything but its own results as it was. -/
theorem ruleOf_done {i : Instr} {s u : State} (h : ruleOf i s = .done u) : u = s.withResults i u := by
  cases i with
  | nop | unpk5551 | unpk555 | pack5551 | pack555 => cases h; rfl
  | swid =>
    simp only [ruleOf, swidRule] at h
    split_ifs at h
    cases h; rfl
  | conv5551 | conv555 => exact copyRule_withResults h
  | pad e | crop e =>
    simp only [ruleOf] at h
    split_ifs at h
    exact copyRule_withResults h
  | pal8 => obtain ⟨-, -, -, -, -, -, -, -, pal, bytes, -, -, rfl⟩ := pal8Rule_done.1 h; rfl
  | pal4 => obtain ⟨-, -, -, -, -, -, -, pal, bytes, -, -, rfl⟩ := pal4Rule_done.1 h; rfl
  | hdr f =>
    simp only [ruleOf] at h
    split_ifs at h
    obtain ⟨-, -, -, lens, -, -, -, -, -, -, rfl⟩ := hdrRule_done.1 h
    rfl

/-- A command that answers a next state has written STATUS, the phase and its own results, nothing else. -/
theorem exec_frame {i : Instr} {s t : State} (h : exec i s = .next t) :
    t = { s.withResults i t with phase := t.phase, done := t.done, err := t.err, errCode := t.errCode } := by
  rw [exec_eq_finish] at h
  obtain ⟨u, hu, rfl⟩ | ⟨e, -, rfl⟩ := finish_next h
  · rw [State.withResults_succeed, ← ruleOf_done hu]
    rfl
  · rw [State.withResults_fail]
    rfl

/-! ### The output of a command is clear of its inputs -/

/-- An output leaves every byte of a range it is clear of. -/
theorem State.commitOutput_read {s : State} {out b m x : Nat} {bytes : List Byte} (hl : bytes.length = out)
    (hd : disjoint s.dst out b m = true) (hb : b ≤ x) (hm : x < b + m) :
    (s.commitOutput out bytes).mem.read x = s.mem.read x := by
  have hd' : out = 0 ∨ m = 0 ∨ s.dst + out ≤ b ∨ b + m ≤ s.dst := (disjoint_iff _ _ _ _).1 hd
  rw [State.commitOutput_mem, Memory.read_writeBytes, if_neg]
  change ¬ (s.dst ≤ x ∧ x < s.dst + bytes.length)
  omega

/-- A `copyRule` that is done leaves its source, if its elements are `e` bytes and fill its output. -/
theorem copyRule_keeps_source {s u : State} {need n out e x : Nat} {elem : Nat → Option (List Byte)}
    (h : copyRule s need n out elem = .done u) (he : ∀ p < n, ∀ x, elem p = some x → x.length = e)
    (ho : out = e * n) (hb : s.src ≤ x) (hm : x < s.src + need) : u.mem.read x = s.mem.read x := by
  obtain ⟨-, -, -, -, hd, bytes, hg, rfl⟩ := copyRule_done.1 h
  exact State.commitOutput_read ((gather_length hg he).trans ho.symm) hd hb hm

theorem length_of_map_pixelBytes {α : Type} {v : Option α} {f : α → Word} {x : List Byte}
    (h : (v.map fun a => pixelBytes (f a)) = some x) : x.length = 4 := by
  obtain ⟨a, -, rfl⟩ := Option.map_eq_some_iff.1 h
  exact pixelBytes_length _

theorem Memory.readBytes_length {m : Memory} {a n : Nat} {bs : List Byte} (h : m.readBytes a n = some bs) :
    bs.length = n := (Memory.readBytes_eq_some.1 h).1

theorem convRule_keeps_source {a : Bool} {s u : State} {x : Nat} (h : convRule a s = .done u)
    (hb : s.src ≤ x) (hm : x < s.src + 2 * s.elems) : u.mem.read x = s.mem.read x :=
  copyRule_keeps_source h (fun _ _ _ => length_of_map_pixelBytes) rfl hb hm

theorem padRule_keeps_source {e : Nat} {s u : State} {x : Nat} (h : padRule e s = .done u)
    (hb : s.src ≤ x) (hm : x < s.src + e * s.w * s.h) : u.mem.read x = s.mem.read x :=
  copyRule_keeps_source h (fun _ _ _ => Memory.readBytes_length) (Nat.mul_assoc _ _ _) hb hm

theorem cropRule_keeps_source {e : Nat} {s u : State} {x : Nat} (h : cropRule e s = .done u)
    (hb : s.src ≤ x) (hm : x < s.src + e * s.sw * s.h) : u.mem.read x = s.mem.read x :=
  copyRule_keeps_source h (fun _ _ _ => Memory.readBytes_length) (Nat.mul_assoc _ _ _) hb hm

/-- PAL8 is clear of its indices and of its palette (R174). -/
theorem pal8Rule_keeps_inputs {s u : State} {x : Nat} (h : pal8Rule s = .done u)
    (hx : (s.src ≤ x ∧ x < s.src + s.elems) ∨ (s.aux ≤ x ∧ x < s.aux + nbfPaletteBytes)) :
    u.mem.read x = s.mem.read x := by
  obtain ⟨-, -, -, -, -, -, hsrc, haux, pal, bytes, -, hg, rfl⟩ := pal8Rule_done.1 h
  have hl := gather_length hg fun _ _ _ => length_of_map_pixelBytes
  obtain ⟨hb, hm⟩ | ⟨hb, hm⟩ := hx
  · exact State.commitOutput_read hl hsrc hb hm
  · exact State.commitOutput_read hl haux hb hm

/-- PAL4 is clear of its indices and of all its palette occupies (R175). -/
theorem pal4Rule_keeps_inputs {s u : State} {x : Nat} (h : pal4Rule s = .done u)
    (hx : (s.src ≤ x ∧ x < s.src + (s.elems + 1) / 2) ∨
      (s.aux ≤ x ∧ x < s.aux + pow2ceil s.auxLen.toNat)) : u.mem.read x = s.mem.read x := by
  obtain ⟨-, -, -, -, -, hsrc, haux, pal, bytes, -, hg, rfl⟩ := pal4Rule_done.1 h
  have hl := gather_length hg fun _ _ _ => length_of_map_pixelBytes
  obtain ⟨hb, hm⟩ | ⟨hb, hm⟩ := hx
  · exact State.commitOutput_read hl hsrc hb hm
  · exact State.commitOutput_read hl haux hb hm

theorem size_eq_elemBytes (e : ESize) : size e = elemBytes e := by cases e <;> rfl

/-- A rule that is done leaves every range its command reads. -/
theorem ruleOf_keeps_inputs {i : Instr} {s u : State} (h : ruleOf i s = .done u) {r : Nat × Nat}
    (hr : r ∈ inputs i s) {x : Nat} (hb : r.1 ≤ x) (hm : x < r.1 + r.2) : u.mem.read x = s.mem.read x := by
  cases i with
  | nop | unpk5551 | unpk555 | pack5551 | pack555 | swid => simp [inputs] at hr
  | conv5551 | conv555 =>
    obtain rfl := List.mem_singleton.1 hr
    exact convRule_keeps_source h hb hm
  | pad e =>
    obtain rfl := List.mem_singleton.1 hr
    simp only [ruleOf] at h
    split_ifs at h
    rw [size_eq_elemBytes] at hm
    exact padRule_keeps_source h hb hm
  | crop e =>
    obtain rfl := List.mem_singleton.1 hr
    simp only [ruleOf] at h
    split_ifs at h
    rw [size_eq_elemBytes] at hm
    exact cropRule_keeps_source h hb hm
  | pal8 =>
    obtain rfl | rfl := List.mem_pair.1 hr
    · exact pal8Rule_keeps_inputs h (.inl ⟨hb, hm⟩)
    · exact pal8Rule_keeps_inputs h (.inr ⟨hb, hm⟩)
  | pal4 =>
    obtain rfl | rfl := List.mem_pair.1 hr
    · exact pal4Rule_keeps_inputs h (.inl ⟨hb, hm⟩)
    · exact pal4Rule_keeps_inputs h (.inr ⟨hb, hm⟩)
  | hdr f => rw [ruleOf_done h]; rfl

/-! ### AUX_ADDR and AUX_LEN -/

/-- `s` with AUX_ADDR and AUX_LEN replaced. -/
def State.withAux (s : State) (a l : Word) : State := { s with auxAddr := a, auxLen := l }

/-- The same verdict with another state where it is done. -/
def Verdict.mapDone (g : State → State) : Verdict → Verdict
  | .done t => .done (g t)
  | .raised e => .raised e
  | .stopped r => .stopped r

@[simp] theorem Verdict.mapDone_done (g : State → State) (t : State) :
    (Verdict.done t).mapDone g = .done (g t) := rfl
@[simp] theorem Verdict.mapDone_raised (g : State → State) (e : ErrorCode) :
    (Verdict.raised e).mapDone g = .raised e := rfl

theorem Verdict.mapDone_load {α : Type} (g : State → State) (v : Option α) (k : α → Verdict) :
    (load v k).mapDone g = load v fun x => (k x).mapDone g := by
  cases v <;> rfl

theorem copyRule_withAux (s : State) (a l : Word) (need n out : Nat) (elem : Nat → Option (List Byte)) :
    copyRule (s.withAux a l) need n out elem
      = (copyRule s need n out elem).mapDone (·.withAux a l) := by
  simp only [copyRule, apply_ite (Verdict.mapDone _), Verdict.mapDone_load, Verdict.mapDone_done,
    Verdict.mapDone_raised]
  rfl

theorem hdrRule_withAux (f : Fmt) (s : State) (a l : Word) :
    hdrRule f (s.withAux a l) = (hdrRule f s).mapDone (·.withAux a l) := by
  simp only [hdrRule, checkMagic, tableRule, sectionsRule, apply_ite (Verdict.mapDone _), Verdict.mapDone_load,
    Verdict.mapDone_done, Verdict.mapDone_raised]
  rfl

theorem ruleOf_withAux {i : Instr} (h8 : i ≠ .pal8) (h4 : i ≠ .pal4) (s : State) (a l : Word) :
    ruleOf i (s.withAux a l) = (ruleOf i s).mapDone (·.withAux a l) := by
  cases i with
  | pal8 => exact absurd rfl h8
  | pal4 => exact absurd rfl h4
  | nop | unpk5551 | unpk555 | pack5551 | pack555 => rfl
  | swid => simp only [ruleOf, swidRule, apply_ite (Verdict.mapDone _)]; rfl
  | conv5551 | conv555 => exact copyRule_withAux ..
  | pad e =>
    simp only [ruleOf, apply_ite (Verdict.mapDone _), padRule, ← copyRule_withAux]; rfl
  | crop e =>
    simp only [ruleOf, apply_ite (Verdict.mapDone _), cropRule, ← copyRule_withAux]; rfl
  | hdr f =>
    simp only [ruleOf, apply_ite (Verdict.mapDone _), hdrRule_withAux]; rfl

/-- An update that leaves STATUS and the phase alone passes through the end of a command. -/
theorem finish_mapDone {g : State → State} (hs : ∀ u, (g u).succeed = g u.succeed)
    (hf : ∀ u e, (g u).fail e = g (u.fail e)) (s : State) (v : Verdict) :
    finish (g s) (v.mapDone g) = mapNext g (finish s v) := by
  cases v with
  | done u => exact congrArg _ (hs u)
  | raised e => exact congrArg _ (hf s e)
  | stopped r => rfl

end Sys2Proof.Machine

namespace Sys2Proof

open Machine Spec

/-- Settles O17: no raise and none of the five kinds of commit of `exec_next` writes one of these fields. -/
theorem commandsKeepOperands : Obligations.CommandsKeepOperands := by
  unfold Obligations.CommandsKeepOperands
  intro i s t h
  obtain ⟨e, rfl⟩ | ⟨u, hu, rfl⟩ := exec_next h
  · simp
  · cases hu <;> simp

/-- Settles O18: by `exec_frame` only the command's own results can differ. -/
theorem onlyOwnCommandsWriteResults : Obligations.OnlyOwnCommandsWriteResults := by
  unfold Obligations.OnlyOwnCommandsWriteResults
  intro i s t h
  rw [exec_frame h]
  refine ⟨fun hi => ?_, fun hi => ?_, fun hi => ?_, fun hi hp hc => ?_⟩
  · cases i with
    | unpk5551 | unpk555 | pack5551 | pack555 => simp at hi
    | _ => rfl
  · cases i with
    | swid => exact absurd rfl hi
    | _ => rfl
  · cases i with
    | hdr f => exact absurd rfl (hi f)
    | _ => exact ⟨rfl, rfl, rfl⟩
  · cases i with
    | conv5551 | conv555 | pal8 | pal4 => simp at hi
    | pad e => exact absurd rfl (hp e)
    | crop e => exact absurd rfl (hc e)
    | _ => exact ⟨rfl, rfl⟩

/-- Settles O19: a rule that is done has checked that its output is clear of what it reads, and a raise
writes no byte. -/
theorem commandsKeepTheirInputs : Obligations.CommandsKeepTheirInputs := by
  unfold Obligations.CommandsKeepTheirInputs
  intro i s t h r hr x hb hm
  rw [exec_eq_finish] at h
  obtain ⟨u, hu, rfl⟩ | ⟨e, -, rfl⟩ := finish_next h
  · exact ruleOf_keeps_inputs hu hr hb hm
  · rfl

/-- Settles O20: the rule of every other command commutes with replacing the two registers. -/
theorem onlyPalettesReadAux : Obligations.OnlyPalettesReadAux := by
  unfold Obligations.OnlyPalettesReadAux
  intro i s a l h8 h4
  change exec i (s.withAux a l) = mapNext (·.withAux a l) (exec i s)
  rw [exec_eq_finish, exec_eq_finish, ruleOf_withAux h8 h4]
  exact finish_mapDone (g := (·.withAux a l)) (fun _ => rfl) (fun _ _ => rfl) s _

end Sys2Proof
end

section
/-! The register window while idle (10_state.md sections 1 to 3), STATUS, and the reset state. -/

namespace Sys2Proof.Machine

open Spec

theorem State.busy_eq (s : State) : s.busy = decide (s.phase = .pending) := by
  unfold State.busy
  cases s.phase <;> rfl

theorem State.busy_eq_false {s : State} (h : s.phase = .idle) : s.busy = false := by
  simp [State.busy_eq, h]

/-- A host turn's access is the next step. -/
theorem step_host (s : State) (a : HostAccess) (rest : List Turn) :
    step { s with agenda := .host a :: rest } = hostAccess a { s with agenda := rest } := rfl

/-- R20, R22: an aligned read inside the window of an idle block. -/
theorem step_readReg_idle {s : State} (h : s.phase = .idle) (rest : List Turn) {off : Nat}
    (ha : off % 4 = 0) (hw : off < Config.windowBytes) :
    step { s with agenda := .host (.readReg off 4) :: rest }
      = .next { s with agenda := rest, reply := some (s.readOffset off) } := by
  have hl : registerAccessLegal off 4 = true := by simp [registerAccessLegal, ha]
  have hb : State.busy { s with agenda := rest } = false := State.busy_eq_false h
  rw [step_host, hostAccess, hostReadReg, hl, hb, if_neg (by simp), if_neg (by simp), if_neg (by omega)]
  rfl

/-- R20, R22: an aligned write inside the window of an idle block. -/
theorem step_writeReg_idle {s : State} (h : s.phase = .idle) (rest : List Turn) {off : Nat} (v : Word)
    (ha : off % 4 = 0) (hw : off < Config.windowBytes) :
    step { s with agenda := .host (.writeReg off 4 v) :: rest }
      = .next (State.writeOffset { s with agenda := rest } off v) := by
  have hl : registerAccessLegal off 4 = true := by simp [registerAccessLegal, ha]
  have hb : State.busy { s with agenda := rest } = false := State.busy_eq_false h
  rw [step_host, hostAccess, hostWriteReg, hl, hb, if_neg (by simp), if_neg (by simp), if_neg (by omega)]

theorem Reg.offset_aligned (r : Reg) : r.offset % 4 = 0 := by
  cases r with
  | secLen i | secAddr i => simp only [Reg.offset]; omega
  | _ => rfl

/-- The last register, SEC_ADDR[15], stands at 0x0BC (R21). -/
theorem Reg.offset_lt (r : Reg) : r.offset < 0x0C0 := by
  cases r with
  | secLen i | secAddr i =>
    have hi : i.val < 16 := i.isLt
    simp only [Reg.offset]
    omega
  | _ => decide

theorem Reg.offset_lt_windowBytes (r : Reg) : r.offset < Config.windowBytes :=
  Nat.lt_trans r.offset_lt (by decide)

/-- At an aligned offset there is no register but the one whose offset it is (R21). -/
theorem offset_of_registerAt {off : Nat} {r : Reg} (ha : off % 4 = 0) (h : registerAt off = some r) :
    r.offset = off := by
  unfold registerAt at h
  split at h
  case h_16 =>
    split_ifs at h with hlen haddr
    · cases h; simp only [Reg.offset]; omega
    · cases h; simp only [Reg.offset]; omega
  all_goals cases h; rfl

theorem registerAt_eq_none {off : Nat} (ha : off % 4 = 0) (h : 0x0C0 ≤ off) : registerAt off = none := by
  cases hr : registerAt off with
  | none => rfl
  | some r =>
    have := offset_of_registerAt ha hr
    have := r.offset_lt
    omega

@[simp] theorem State.readOffset_offset (s : State) (r : Reg) : s.readOffset r.offset = s.get r := by
  rw [State.readOffset, registerAt_offset]

@[simp] theorem State.writeOffset_offset (s : State) (r : Reg) (v : Word) :
    s.writeOffset r.offset v = s.hostSet r v := by
  rw [State.writeOffset, registerAt_offset]

/-- R21: a read at a register's offset returns the register. -/
theorem step_read_register {s : State} (h : s.phase = .idle) (rest : List Turn) (r : Reg) :
    step { s with agenda := .host (.readReg r.offset 4) :: rest }
      = .next { s with agenda := rest, reply := some (s.get r) } := by
  rw [step_readReg_idle h rest r.offset_aligned r.offset_lt_windowBytes, State.readOffset_offset]

/-- R22: a read at a reserved offset returns 0. -/
theorem step_read_reserved {s : State} (h : s.phase = .idle) (rest : List Turn) {off : Nat}
    (ha : off % 4 = 0) (hw : off < Config.windowBytes) (hr : registerAt off = none) :
    step { s with agenda := .host (.readReg off 4) :: rest }
      = .next { s with agenda := rest, reply := some 0 } := by
  rw [step_readReg_idle h rest ha hw, State.readOffset, hr]

theorem State.ctrlWord_eq (s : State) : s.ctrlWord = 0#30 ++ s.ctrl :=
  BitVec.setWidth_eq_append (by decide)

/-! ### Host writes -/

/-- Two stored bits read back as bits 1:0 of the word written (R25). -/
theorem setWidth_setWidth_two (v : Word) : (v.setWidth 2).setWidth 32 = v &&& 3 := by
  apply BitVec.eq_of_toNat_eq
  have := Nat.and_two_pow_sub_one_eq_mod v.toNat 2
  simp at this ⊢
  omega

/-- What a register reads as after a host write to a RW register (R22, R23, R25). -/
theorem State.get_hostSet (s : State) {r : Reg} (hr : r ∈ writable) (v : Word) (q : Reg) :
    (s.hostSet r v).get q = if q = r then (if r = .ctrl then (v.setWidth 2).setWidth 32 else v) else s.get q := by
  cases r with
  | ctrl | srcAddr | srcLen | dstAddr | auxAddr | auxLen | width | height | din => cases q <;> rfl
  | _ => simp [writable] at hr

/-- STATUS and the registers from DOUT up are RO (R21, R22). -/
theorem State.hostSet_readOnly (s : State) {r : Reg} (h : r.offset = 0x004 ∨ 0x02C ≤ r.offset) (v : Word) :
    s.hostSet r v = s := by
  cases r with
  | status | dout | swidth | outLen | secCount | secLen i | secAddr i => rfl
  | _ => simp [Reg.offset] at h

theorem State.writeOffset_readOnly (s : State) {off : Nat} (ha : off % 4 = 0)
    (h : off = 0x004 ∨ 0x02C ≤ off) (v : Word) : s.writeOffset off v = s := by
  unfold State.writeOffset
  split
  · next r hr => exact s.hostSet_readOnly (by rwa [offset_of_registerAt ha hr]) v
  · rfl

/-- A host write to a RW register leaves everything that is no register. -/
theorem State.hostSet_frame (s : State) {r : Reg} (hr : r ∈ writable) (v : Word) :
    let t := s.hostSet r v
    t.mem = s.mem ∧ t.phase = s.phase ∧ t.agenda = s.agenda ∧ t.memExp = s.memExp ∧ t.reply = s.reply ∧
      t.refusedMark = s.refusedMark ∧ t.faultMark = s.faultMark := by
  cases r with
  | cmd => simp [writable] at hr
  | _ => exact ⟨rfl, rfl, rfl, rfl, rfl, rfl, rfl⟩

end Sys2Proof.Machine

namespace Sys2Proof

open Machine Spec

/-- Settles O44: `step_read_register` at each register, `step_read_reserved` at the other offsets. -/
theorem hostReadsRegisterMap : Obligations.HostReadsRegisterMap := by
  unfold Obligations.HostReadsRegisterMap
  intro s rest h reads
  have reg (r : Reg) : reads r.offset (s.get r) := step_read_register h rest r
  refine ⟨?_, reg .status, reg .cmd, reg .srcAddr, reg .srcLen, reg .dstAddr, reg .auxAddr, reg .auxLen,
    reg .width, reg .height, reg .din, reg .dout, reg .swidth, reg .outLen, reg .secCount, ?_, fun i =>
    ⟨reg (.secLen i), reg (.secAddr i), ?_⟩⟩
  · rw [← s.ctrlWord_eq]
    exact reg .ctrl
  · exact step_read_reserved h rest (by decide) (by decide) rfl
  · exact step_read_reserved h rest (by omega) (show _ < 0x100 by omega)
      (registerAt_eq_none (by omega) (by omega))

/-- Settles O45: `State.get_hostSet` says what each register reads as after the write. -/
theorem hostWritesRegister : Obligations.HostWritesRegister := by
  unfold Obligations.HostWritesRegister
  intro s r v rest h hr
  obtain ⟨hmem, hphase, hagenda, hexp, hreply, hrefused, hfault⟩ :=
    State.hostSet_frame { s with agenda := rest } hr v
  refine ⟨State.hostSet { s with agenda := rest } r v, ?_, ?_, fun q hq => ?_, hmem, hphase.trans h, hagenda,
    hexp, hreply, hrefused, hfault⟩
  · rw [step_writeReg_idle h rest v r.offset_aligned r.offset_lt_windowBytes, State.writeOffset_offset]
  · rw [State.get_hostSet _ hr, if_pos rfl, setWidth_setWidth_two]
  · rw [State.get_hostSet _ hr, if_neg hq]
    cases q <;> rfl

/-- Settles O46: at these offsets stands a RO register or none (`State.writeOffset_readOnly`). -/
theorem hostWriteToReadOnlyIgnored : Obligations.HostWriteToReadOnlyIgnored := by
  unfold Obligations.HostWriteToReadOnlyIgnored
  intro s off v rest h ha hoff
  have hw : off < 0x100 := by omega
  rw [step_writeReg_idle h rest v ha hw, State.writeOffset_readOnly _ ha (by omega)]

/-- Settles O11: STATUS is a function of the 4-bit ERRCODE and three flags, 128 words in all. -/
theorem statusWordLayout : Obligations.StatusWordLayout := by
  unfold Obligations.StatusWordLayout
  intro s
  rw [← State.busy_eq]
  unfold State.statusWord
  generalize s.errCode = c
  generalize s.err = e
  generalize s.done = d
  generalize s.busy = b
  revert c e d b
  decide

/-- Settles O50, register by register. -/
theorem resetStateValues : Obligations.ResetStateValues := by
  unfold Obligations.ResetStateValues
  refine ⟨fun r => ?_, rfl, rfl, rfl, fun a => rfl⟩
  cases r with
  | ctrl => decide
  | secLen i => simp [State.get, State.reset]
  | secAddr i => simp [State.get, State.reset]
  | _ => rfl

end Sys2Proof
end

section
/-! The marks of R40 (10_state.md section 7). -/

namespace Sys2Proof.Machine

theorem Commits.marks_eq {s u : State} (h : Commits s u) :
    u.faultMark = s.faultMark ∧ u.refusedMark = s.refusedMark := by
  cases h <;> exact ⟨rfl, rfl⟩

theorem exec_keeps_marks {i : Instr} {s t : State} (h : exec i s = .next t) :
    t.faultMark = s.faultMark ∧ t.refusedMark = s.refusedMark := by
  obtain ⟨e, rfl⟩ | ⟨u, hu, rfl⟩ := exec_next h
  · exact ⟨rfl, rfl⟩
  · exact hu.marks_eq

theorem State.writeOffset_marks (s : State) (off : Nat) (v : Word) :
    (s.writeOffset off v).faultMark = s.faultMark ∧ (s.writeOffset off v).refusedMark = s.refusedMark := by
  unfold State.writeOffset
  split
  · next r _ => cases r <;> exact ⟨rfl, rfl⟩
  · exact ⟨rfl, rfl⟩

theorem hostAccess_keeps_marks {a : HostAccess} {s t : State} (h : hostAccess a s = .next t) :
    t.faultMark = s.faultMark ∧ t.refusedMark = s.refusedMark := by
  obtain ⟨v, rfl⟩ | ⟨-, off, v, rfl⟩ | ⟨-, addr, n, v, -, rfl⟩ := hostAccess_next h
  · exact ⟨rfl, rfl⟩
  · exact s.writeOffset_marks off v
  · exact ⟨rfl, rfl⟩

/-- A step that goes on keeps both marks, but for the reset input and power (R41, logs 15 and 21). -/
theorem step_keeps_marks {s t : State} (h : step s = .next t) (hr : s.nextTurn ≠ .reset)
    (hp : s.nextTurn ≠ .power) : t.faultMark = s.faultMark ∧ t.refusedMark = s.refusedMark := by
  obtain ⟨a, -, ha⟩ | ⟨hn, -⟩ | ⟨hn, -⟩ | ⟨-, -, rfl⟩ | ⟨-, -, ⟨i, -, hi⟩ | ⟨r, -, rfl⟩⟩ := step_next h
  · simpa using hostAccess_keeps_marks ha
  · exact absurd hn hr
  · exact absurd hn hp
  · exact ⟨rfl, rfl⟩
  · simpa using exec_keeps_marks hi
  · exact ⟨rfl, rfl⟩

end Sys2Proof.Machine

namespace Sys2Proof

open Machine

/-- Settles O52: a step that goes on keeps both marks, and a stop sets its own and keeps the other. -/
theorem marksSetAndKept : Obligations.MarksSetAndKept := by
  unfold Obligations.MarksSetAndKept
  intro s hr hp
  unfold stepMarked
  cases h : step s with
  | next t =>
    obtain ⟨hfault, hrefused⟩ := step_keeps_marks h hr hp
    simp [hfault, hrefused]
  | fault r => simp
  | refused r => simp

end Sys2Proof
end

section
/-! `MEM` (20_memory.md): the host reads back what it writes, a written byte stays written, and the register
commands never reach `MEM`. -/

namespace Sys2Proof.Machine

open Spec

/-! ### Little-endian bytes (R52) -/

theorem leBytes_getElem? {n k : Nat} (h : k < n) (v : Nat) :
    (leBytes n v)[k]? = some (BitVec.ofNat 8 (v / 256 ^ k)) := by
  induction n generalizing k v with
  | zero => omega
  | succ n ih =>
    cases k with
    | zero => simp [leBytes]
    | succ k => rw [leBytes, List.getElem?_cons_succ, ih (by omega), Nat.div_div_eq_div_mul, ← Nat.pow_succ']

/-- Digit `k` of a word in base 256 is its bits from `8 k` up. -/
theorem ofNat_div_pow_eq_extractLsb' {w : Nat} (v : BitVec w) (k : Nat) :
    BitVec.ofNat 8 (v.toNat / 256 ^ k) = v.extractLsb' (8 * k) 8 := by
  rw [BitVec.extractLsb', Nat.shiftRight_eq_div_pow, Nat.pow_mul]

/-! ### `MemWrite` (R9) -/

theorem Memory.read_writeNat_inside (m : Memory) (a : Nat) {n k : Nat} (h : k < n) (v : Nat) :
    (m.writeNat a n v).read (a + k) = some (BitVec.ofNat 8 (v / 256 ^ k)) := by
  rw [Memory.writeNat, Memory.read_writeBytes, leBytes_length, if_pos (by omega), Nat.add_sub_cancel_left,
    leBytes_getElem? h]

theorem Memory.read_writeNat_outside (m : Memory) {a n x : Nat} (h : ¬ (a ≤ x ∧ x < a + n)) (v : Nat) :
    (m.writeNat a n v).read x = m.read x := by
  rw [Memory.writeNat, Memory.read_writeBytes, leBytes_length, if_neg h]

/-- A range read back right after it was written (R9, R52). -/
theorem Memory.readNat_writeNat (m : Memory) (a n v : Nat) :
    (m.writeNat a n v).readNat a n = some (v % 256 ^ n) := by
  have hbytes : (m.writeNat a n v).readBytes a n = some (leBytes n v) := by
    refine Memory.readBytes_eq_some.2 ⟨leBytes_length n v, fun k hk => ?_⟩
    rw [Memory.read_writeNat_inside m a hk, leBytes_getElem? hk]
  rw [Memory.readNat, hbytes, Option.map_some, leNat_leBytes]

/-! ### The host's accesses to `MEM` of an idle block (R60) -/

theorem memAccessLegal_iff (n : Nat) : memAccessLegal n = true ↔ n = 1 ∨ n = 2 ∨ n = 4 := by
  simp [memAccessLegal]

theorem step_writeMem_idle {s : State} (h : s.phase = .idle) (rest : List Turn) {a n : Nat} (v : Word)
    (hl : memAccessLegal n = true) (hm : s.inMem a n = true) :
    step { s with agenda := .host (.writeMem a n v) :: rest }
      = .next { s with agenda := rest, mem := s.mem.writeNat a n v.toNat } := by
  have hb : State.busy { s with agenda := rest } = false := State.busy_eq_false h
  have hm' : State.inMem { s with agenda := rest } a n = true := hm
  rw [step_host, hostAccess, hostWriteMem, hl, hb, hm']
  rfl

theorem step_readMem_idle {s : State} (h : s.phase = .idle) (rest : List Turn) {a n v : Nat}
    (hl : memAccessLegal n = true) (hm : s.inMem a n = true) (hv : s.mem.readNat a n = some v) :
    step { s with agenda := .host (.readMem a n) :: rest }
      = .next { s with agenda := rest, reply := some (BitVec.ofNat 32 v) } := by
  have hb : State.busy { s with agenda := rest } = false := State.busy_eq_false h
  have hm' : State.inMem { s with agenda := rest } a n = true := hm
  have hv' : Memory.readNat (State.mem { s with agenda := rest }) a n = some v := hv
  rw [step_host, hostAccess, hostReadMem, hl, hb, hm', hv']
  rfl

/-! ### Written bytes (R68) -/

/-- No write makes a byte unwritten. -/
theorem Memory.read_writeBytes_isSome {m : Memory} {x : Nat} (h : (m.read x).isSome = true) (a : Nat)
    (bs : List Byte) : ((m.writeBytes a bs).read x).isSome = true := by
  rw [Memory.read_writeBytes]
  split
  · rw [List.getElem?_eq_getElem (by omega)]; rfl
  · exact h

theorem State.writeOffset_mem (s : State) (off : Nat) (v : Word) : (s.writeOffset off v).mem = s.mem := by
  unfold State.writeOffset
  split
  · next r _ => cases r <;> rfl
  · rfl

theorem Commits.keeps_written {s u : State} {x : Nat} (h : Commits s u)
    (hx : (s.mem.read x).isSome = true) : (u.mem.read x).isSome = true := by
  cases h with
  | output out bytes hl hm => exact Memory.read_writeBytes_isSome hx _ _
  | nothing | dout | swidth | sections => exact hx

theorem exec_keeps_written {i : Instr} {s t : State} {x : Nat} (h : exec i s = .next t)
    (hx : (s.mem.read x).isSome = true) : (t.mem.read x).isSome = true := by
  obtain ⟨e, rfl⟩ | ⟨u, hu, rfl⟩ := exec_next h
  · exact hx
  · exact hu.keeps_written hx

theorem hostAccess_keeps_written {a : HostAccess} {s t : State} {x : Nat} (h : hostAccess a s = .next t)
    (hx : (s.mem.read x).isSome = true) : (t.mem.read x).isSome = true := by
  obtain ⟨v, rfl⟩ | ⟨-, off, v, rfl⟩ | ⟨-, addr, n, v, -, rfl⟩ := hostAccess_next h
  · exact hx
  · rwa [State.writeOffset_mem]
  · exact Memory.read_writeBytes_isSome hx _ _

/-- The host, the reset input and the block keep every written byte written; only power does not. -/
theorem step_keeps_written {s t : State} {x : Nat} (h : step s = .next t) (hp : s.nextTurn ≠ .power)
    (hx : (s.mem.read x).isSome = true) : (t.mem.read x).isSome = true := by
  obtain ⟨a, -, ha⟩ | ⟨-, rfl⟩ | ⟨hn, -⟩ | ⟨-, -, rfl⟩ | ⟨-, -, ⟨i, -, hi⟩ | ⟨r, -, rfl⟩⟩ := step_next h
  · exact hostAccess_keeps_written ha hx
  · exact hx
  · exact absurd hn hp
  · exact hx
  · exact exec_keeps_written hi hx
  · exact hx

/-! ### `MEM` replaced -/

/-- `s` with `MEM` replaced. -/
def State.withMem (s : State) (m : Memory) : State := { s with mem := m }

/-- The rules of NOP and the register commands commute with replacing `MEM` (R50). -/
theorem ruleOf_withMem {i : Instr} (hi : i ∈ [.nop, .unpk5551, .unpk555, .pack5551, .pack555, .swid])
    (s : State) (m : Memory) : ruleOf i (s.withMem m) = (ruleOf i s).mapDone (·.withMem m) := by
  cases i with
  | nop | unpk5551 | unpk555 | pack5551 | pack555 => rfl
  | swid => simp only [ruleOf, swidRule, apply_ite (Verdict.mapDone _)]; rfl
  | _ => simp at hi

end Sys2Proof.Machine

namespace Sys2Proof

open Machine Spec

/-- Settles O48: the write is `MemWrite`, and `Memory.readNat_writeNat` says what the read then finds. -/
theorem hostMemoryReadAfterWrite : Obligations.HostMemoryReadAfterWrite := by
  unfold Obligations.HostMemoryReadAfterWrite
  intro s a n v rest h hn hm
  have hl := (memAccessLegal_iff n).2 hn
  have hin := (s.inMem_iff a n).2 hm
  refine ⟨_, step_writeMem_idle h _ v hl hin, rfl, fun x hx => ?_, fun k hk => ?_, ?_⟩
  · exact s.mem.read_writeNat_outside hx _
  · rw [← ofNat_div_pow_eq_extractLsb']
    exact s.mem.read_writeNat_inside a hk _
  · rw [Nat.pow_mul]
    exact step_readMem_idle (s := { s with mem := s.mem.writeNat a n v.toNat }) h rest hl hin
      (s.mem.readNat_writeNat a n _)

/-- Settles O51: `step_next` names every way a step can answer, and none but power takes a byte away. -/
theorem bytesStayWritten : Obligations.BytesStayWritten := by
  unfold Obligations.BytesStayWritten
  exact fun _ _ _ h hp hx => step_keeps_written h hp hx

/-- Settles O21: `ruleOf_withMem`, carried through the end of the command. -/
theorem registerCommandsNeverReachMem : Obligations.RegisterCommandsNeverReachMem := by
  unfold Obligations.RegisterCommandsNeverReachMem
  intro i s m hi
  change exec i (s.withMem m) = mapNext (·.withMem m) (exec i s)
  rw [exec_eq_finish, exec_eq_finish, ruleOf_withMem hi]
  exact finish_mapDone (g := (·.withMem m)) (fun _ => rfl) (fun _ _ => rfl) s _

end Sys2Proof
end

section
/-! The encoding statements (30_encoding.md): the decoder and the encoder agree on every word, a rejected word
has the field wrong that R78 names, and what the block does with a rejected word. -/

namespace Sys2Proof

open Machine

/-! ### Fields -/

theorem commandWord_of_fields {w : Word} {es fm : BitVec 2} (hr : rsvField w = 0) (hes : esizeField w = es)
    (hfm : fmtField w = fm) : commandWord (opField w) es fm = w := by
  have hw := word_of_fields w
  rwa [hr, hfm, hes] at hw

theorem ESize.code_ofCode (c : BitVec 2) : (ESize.ofCode c).code = c := by revert c; decide

theorem Fmt.code_ofCode (c : BitVec 2) : (Fmt.ofCode c).code = c := by revert c; decide

/-! ### The decoder, by the shape of the command -/

theorem decode_of_rsvField {w : Word} (hr : rsvField w = 0) : decode w = decodeOp w := if_pos hr

theorem decodePlain_unusedField {w : Word} (i : Instr) (h : esizeField w ≠ 0 ∨ fmtField w ≠ 0) :
    decodePlain w i = .rejected .unusedField := if_neg (not_and_or.2 h)

theorem decodeSized_eq (w : Word) (mk : ESize → Instr) :
    decodeSized w mk =
      if fmtField w = 0 then
        if (ESize.ofCode (esizeField w)).legal then .command (mk (ESize.ofCode (esizeField w)))
        else .rejected .reservedSize
      else .rejected .unusedField := by
  unfold decodeSized
  cases ESize.ofCode (esizeField w) <;> rfl

theorem decodeHeader_eq (w : Word) :
    decodeHeader w =
      if esizeField w = 0 then
        if (Fmt.ofCode (fmtField w)).legal then .command (.hdr (Fmt.ofCode (fmtField w)))
        else .rejected .unsupportedFormat
      else .rejected .unusedField := by
  unfold decodeHeader
  cases Fmt.ofCode (fmtField w) <;> rfl

theorem Fmt.eq_reserved_of_not_legal {f : Fmt} (h : ¬ f.legal = true) : f = .reserved := by
  cases f with
  | reserved => rfl
  | _ => exact absurd rfl h

/-! ### The opcode map (R72, R76) -/

/-- The opcodes of the commands that use neither ESIZE nor FMT. -/
def plainOps : List (BitVec 8) := [0x00, 0x01, 0x02, 0x03, 0x04, 0x05, 0x08, 0x09, 0x10, 0x11]

/-- The opcodes of PAD and CROP. -/
def sizedOps : List (BitVec 8) := [0x0C, 0x0D]

theorem decodeOp_plain {w : Word} (h : opField w ∈ plainOps) :
    ∃ i : Instr, i.wellFormed = true ∧ encode i = commandWord (opField w) 0 0 ∧
      decodeOp w = decodePlain w i := by
  simp only [plainOps, List.mem_cons, List.not_mem_nil, or_false] at h
  obtain h | h | h | h | h | h | h | h | h | h := h <;> rw [decodeOp, h]
  exacts [⟨.nop, rfl, rfl, rfl⟩, ⟨.unpk5551, rfl, rfl, rfl⟩, ⟨.unpk555, rfl, rfl, rfl⟩,
    ⟨.pack5551, rfl, rfl, rfl⟩, ⟨.pack555, rfl, rfl, rfl⟩, ⟨.swid, rfl, rfl, rfl⟩,
    ⟨.conv5551, rfl, rfl, rfl⟩, ⟨.conv555, rfl, rfl, rfl⟩, ⟨.pal8, rfl, rfl, rfl⟩, ⟨.pal4, rfl, rfl, rfl⟩]

theorem decodeOp_sized {w : Word} (h : opField w ∈ sizedOps) :
    ∃ mk : ESize → Instr, (∀ e, (mk e).wellFormed = e.legal) ∧
      (∀ e, encode (mk e) = commandWord (opField w) e.code 0) ∧ decodeOp w = decodeSized w mk := by
  simp only [sizedOps, List.mem_cons, List.not_mem_nil, or_false] at h
  obtain h | h := h <;> rw [decodeOp, h]
  exacts [⟨.pad, fun _ => rfl, fun _ => rfl, rfl⟩, ⟨.crop, fun _ => rfl, fun _ => rfl, rfl⟩]

theorem decodeOp_header {w : Word} (h : opField w = 0x18) : decodeOp w = decodeHeader w := by
  rw [decodeOp, h]
  rfl

theorem decodeOp_reserved {w : Word} (hp : opField w ∉ plainOps) (hs : opField w ∉ sizedOps)
    (hh : opField w ≠ 0x18) : decodeOp w = .rejected .reservedOpcode := by
  unfold decodeOp
  split
  case h_14 => rfl
  case h_13 hop => exact absurd hop hh
  case h_9 hop | h_10 hop => exact absurd (by rw [hop]; decide) hs
  all_goals next hop => exact absurd (by rw [hop]; decide) hp

/-! ### Decode and encode agree (R78, R79) -/

/-- What an answer of the decoder says of the word `w`: a command is well formed and `w` is its encoding, and
UNSUPPORTED_FORMAT is for one word only. -/
def Decoded.Describes (w : Word) : Decoded → Prop
  | .command i => i.wellFormed = true ∧ encode i = w
  | .rejected r => r = .unsupportedFormat → w = 0x00000C18

theorem decodePlain_describes {w : Word} {i : Instr} (hr : rsvField w = 0) (hi : i.wellFormed = true)
    (he : encode i = commandWord (opField w) 0 0) : (decodePlain w i).Describes w := by
  unfold decodePlain
  split_ifs with h
  · exact ⟨hi, he.trans (commandWord_of_fields hr h.1 h.2)⟩
  · exact nofun

theorem decodeSized_describes {w : Word} {mk : ESize → Instr} (hr : rsvField w = 0)
    (hi : ∀ e, (mk e).wellFormed = e.legal) (he : ∀ e, encode (mk e) = commandWord (opField w) e.code 0) :
    (decodeSized w mk).Describes w := by
  rw [decodeSized_eq]
  split_ifs with hf hl
  · exact ⟨(hi _).trans hl, (he _).trans (commandWord_of_fields hr (ESize.code_ofCode _).symm hf)⟩
  · exact nofun
  · exact nofun

theorem decodeHeader_describes {w : Word} (hr : rsvField w = 0) (hop : opField w = 0x18) :
    (decodeHeader w).Describes w := by
  have hw (hs : esizeField w = 0) : commandWord 0x18 0 (Fmt.ofCode (fmtField w)).code = w :=
    hop ▸ commandWord_of_fields hr hs (Fmt.code_ofCode _).symm
  rw [decodeHeader_eq]
  split_ifs with hs hl
  · exact ⟨hl, hw hs⟩
  · rw [Fmt.eq_reserved_of_not_legal hl] at hw
    exact fun _ => (hw hs).symm
  · exact nofun

theorem decodeOp_describes {w : Word} (hr : rsvField w = 0) : (decodeOp w).Describes w := by
  by_cases hp : opField w ∈ plainOps
  · obtain ⟨i, hi, he, hd⟩ := decodeOp_plain hp
    exact hd ▸ decodePlain_describes hr hi he
  by_cases hs : opField w ∈ sizedOps
  · obtain ⟨mk, hi, he, hd⟩ := decodeOp_sized hs
    exact hd ▸ decodeSized_describes hr hi he
  by_cases hh : opField w = 0x18
  · exact decodeOp_header hh ▸ decodeHeader_describes hr hh
  · rw [decodeOp_reserved hp hs hh]
    exact nofun

theorem decode_describes (w : Word) : (decode w).Describes w := by
  unfold decode
  split_ifs with hr
  · exact decodeOp_describes hr
  · exact nofun

theorem decode_encode {i : Instr} (h : i.wellFormed = true) : decode (encode i) = .command i := by
  cases i with
  | pad e | crop e =>
    cases e with
    | reserved => cases h
    | _ => rfl
  | hdr f =>
    cases f with
    | reserved => cases h
    | _ => rfl
  | _ => rfl

theorem decode_eq_command_iff (w : Word) (i : Instr) :
    decode w = .command i ↔ i.wellFormed = true ∧ encode i = w := by
  constructor
  · intro h
    have hd := decode_describes w
    rwa [h] at hd
  · rintro ⟨hi, rfl⟩
    exact decode_encode hi

theorem eq_of_decode_unsupportedFormat {w : Word} (h : decode w = .rejected .unsupportedFormat) :
    w = 0x00000C18 := by
  have hd := decode_describes w
  rw [h] at hd
  exact hd rfl

/-- Settles O1: `decode_describes` one way, `decode_encode` the other. -/
theorem decodeInvertsEncodeBothWays : Obligations.DecodeInvertsEncodeBothWays := by
  unfold Obligations.DecodeInvertsEncodeBothWays
  exact decode_eq_command_iff

/-! ### The table of the legal words (R79) -/

/-- The 19 assembler forms, in the order of R79. -/
def assemblerForms : List Instr :=
  [.nop, .unpk5551, .unpk555, .pack5551, .pack555, .swid, .conv5551, .conv555, .pad .e1, .pad .e2, .pad .e4,
    .crop .e1, .crop .e2, .crop .e4, .pal8, .pal4, .hdr .gen, .hdr .nbf, .hdr .npf]

theorem mem_assemblerForms_iff (i : Instr) : i ∈ assemblerForms ↔ i.wellFormed = true := by
  constructor
  · revert i
    decide
  · intro h
    cases i with
    | pad e | crop e =>
      cases e with
      | reserved => cases h
      | _ => decide
    | hdr f =>
      cases f with
      | reserved => cases h
      | _ => decide
    | _ => decide

/-- The table of R79: each assembler form by its word. -/
def wordTable : List (Word × Instr) := assemblerForms.map fun i => (encode i, i)

theorem decode_eq_command_iff_mem_wordTable (w : Word) (i : Instr) :
    decode w = .command i ↔ (w, i) ∈ wordTable := by
  rw [decode_eq_command_iff, ← mem_assemblerForms_iff]
  simp [wordTable, and_comm]

theorem rejectionError_of_ne {r : Rejection} (h : r ≠ .unsupportedFormat) :
    rejectionError r = .illegalCommand := by
  cases r with
  | unsupportedFormat => exact absurd rfl h
  | _ => rfl

theorem decode_rejects_of_not_mem_wordTable {w : Word} (h : w ∉ wordTable.map Prod.fst)
    (hw : w ≠ 0x00000C18) : ∃ r, decode w = .rejected r ∧ rejectionError r = .illegalCommand := by
  cases hd : decode w with
  | command i =>
    exact absurd (List.mem_map_of_mem ((decode_eq_command_iff_mem_wordTable w i).1 hd)) h
  | rejected r =>
    refine ⟨r, rfl, rejectionError_of_ne fun hr => hw ?_⟩
    exact eq_of_decode_unsupportedFormat (hr ▸ hd)

/-- Settles O2: the table is `wordTable`, the encodings of the 19 assembler forms. -/
theorem decodeTableOfAllWords : Obligations.DecodeTableOfAllWords := by
  unfold Obligations.DecodeTableOfAllWords
  exact ⟨decode_eq_command_iff_mem_wordTable, ⟨.unsupportedFormat, by decide, rfl⟩,
    fun _ => decode_rejects_of_not_mem_wordTable⟩

/-- Settles O4: each word is the encoding of its command. -/
theorem decodeSampleWords : Obligations.DecodeSampleWords := by
  unfold Obligations.DecodeSampleWords
  exact ⟨decode_encode (i := .nop) rfl, decode_encode (i := .unpk5551) rfl, decode_encode (i := .pack555) rfl,
    decode_encode (i := .conv555) rfl, decode_encode (i := .pad .e2) rfl, decode_encode (i := .crop .e4) rfl,
    decode_encode (i := .pal4) rfl, decode_encode (i := .hdr .npf) rfl⟩

/-! ### Which field a rejected word has wrong (R73 to R78) -/

theorem decode_reservedBits {w : Word} (h : rsvField w ≠ 0) : decode w = .rejected .reservedBits := if_neg h

/-- The reserved opcodes as R76 lists them are those of no command. -/
theorem not_mem_ops_of_reserved {op : BitVec 8}
    (h : op.toNat ∈ [0x06, 0x07, 0x0A, 0x0B, 0x0E, 0x0F] ∨ (0x12 ≤ op.toNat ∧ op.toNat ≤ 0x17) ∨
      0x19 ≤ op.toNat) : op ∉ plainOps ∧ op ∉ sizedOps ∧ op ≠ 0x18 := by
  revert op
  decide

theorem decodeSized_reservedSize {w : Word} (mk : ESize → Instr) (hf : fmtField w = 0)
    (hs : esizeField w = 3) : decodeSized w mk = .rejected .reservedSize := by
  rw [decodeSized, if_pos hf, hs]
  rfl

theorem decodeSized_unusedField {w : Word} (mk : ESize → Instr) (hf : fmtField w ≠ 0) :
    decodeSized w mk = .rejected .unusedField := if_neg hf

theorem decodeHeader_unsupportedFormat {w : Word} (hs : esizeField w = 0) (hf : fmtField w = 3) :
    decodeHeader w = .rejected .unsupportedFormat := by
  rw [decodeHeader, if_pos hs, hf]
  rfl

theorem decodeHeader_unusedField {w : Word} (hs : esizeField w ≠ 0) :
    decodeHeader w = .rejected .unusedField := if_neg hs

/-- Settles O3: per clause, the shape that the opcode map names and what that shape asks of its fields. -/
theorem decodeRejectsByField : Obligations.DecodeRejectsByField := by
  unfold Obligations.DecodeRejectsByField
  intro w
  refine ⟨decode_reservedBits, fun hr hop => ?reservedOp, fun hr hop => ?sized, fun hr hop => ?header,
    fun hr hop hne => ?plain⟩
  all_goals rw [decode_of_rsvField hr]
  case reservedOp =>
    obtain ⟨hp, hs, hh⟩ := not_mem_ops_of_reserved hop
    exact decodeOp_reserved hp hs hh
  case sized =>
    have hm : opField w ∈ sizedOps := List.mem_pair.2 hop
    obtain ⟨mk, -, -, hd⟩ := decodeOp_sized hm
    rw [hd]
    exact ⟨decodeSized_unusedField mk, decodeSized_reservedSize mk⟩
  case header =>
    rw [decodeOp_header hop]
    exact ⟨decodeHeader_unusedField, decodeHeader_unsupportedFormat⟩
  case plain =>
    have hm : opField w ∈ plainOps := (List.mem_map_of_injective BitVec.toNat_injective).1 hop
    obtain ⟨i, -, -, hd⟩ := decodeOp_plain hm
    rw [hd]
    exact decodePlain_unusedField i hne

end Sys2Proof

namespace Sys2Proof.Machine

open Spec

/-! ### What the block does with a rejected word (R203, R204) -/

theorem step_pending {s : State} (hp : s.phase = .pending) (hn : s.nextTurn = .block) :
    step s = executeCommand s.takeTurn := by
  rw [step, hn, runTurn, blockTurn, State.takeTurn_phase, hp]

theorem executeCommand_rejected {s : State} {r : Rejection} (h : decode s.cmd = .rejected r) :
    executeCommand s = s.raise (rejectionError r) := by
  rw [executeCommand, h]

theorem raise_eq_raised (s : State) (e : ErrorCode) : s.raise e = .next (raised s e.code) := rfl

theorem rejectionError_code (r : Rejection) :
    (rejectionError r).code = if r = .unsupportedFormat then 4 else 5 := by cases r <;> rfl

end Sys2Proof.Machine

namespace Sys2Proof

open Machine Spec

/-- Settles O6: the block's turn raises the rejection's error, by `executeCommand_rejected`. -/
theorem stepRaisesOnRejectedWord : Obligations.StepRaisesOnRejectedWord := by
  unfold Obligations.StepRaisesOnRejectedWord
  intro s r hp hn hd
  rw [step_pending hp hn, executeCommand_rejected (s := s.takeTurn) hd, raise_eq_raised, rejectionError_code]

/-- Settles O7: each of the three looks at its field code before it reads a register. -/
theorem reservedFieldCodesRaise : Obligations.ReservedFieldCodesRaise := by
  unfold Obligations.ReservedFieldCodesRaise
  exact fun s => ⟨raise_eq_raised s .illegalCommand, raise_eq_raised s .illegalCommand,
    raise_eq_raised s .unsupportedFormat⟩

end Sys2Proof
end

section
/-! The colour functions (40_color_packing.md): `unpack` and `pack` channel by channel, and their round
trips. -/

namespace Sys2Proof.Machine

open Spec

/-! ### Bit fields as numbers -/

theorem toNat_append_eq_add {m n : Nat} (x : BitVec m) (y : BitVec n) :
    (x ++ y).toNat = 2 ^ n * x.toNat + y.toNat := by
  rw [BitVec.toNat_append, ← Nat.shiftLeft_add_eq_or_of_lt y.isLt, Nat.shiftLeft_eq, Nat.mul_comm]

theorem toNat_extractLsb'_eq_div_mod {w : Nat} (x : BitVec w) (k n : Nat) :
    (x.extractLsb' k n).toNat = x.toNat / 2 ^ k % 2 ^ n := by
  rw [BitVec.extractLsb'_toNat, Nat.shiftRight_eq_div_pow]

/-- A field of a field. -/
theorem extractLsb'_extractLsb'_add {w k n j m : Nat} (x : BitVec w) (h : j + m ≤ n) :
    (x.extractLsb' k n).extractLsb' j m = x.extractLsb' (k + j) m := by
  apply BitVec.eq_of_getLsbD_eq
  intro i hi
  simp [hi, show j + i < n by omega, Nat.add_assoc]

/-! ### `expand5` (R101) -/

theorem expand5_toNat (c : BitVec 5) : (expand5 c).toNat = channel c.toNat := by revert c; decide

theorem expand5_bit2 (c : BitVec 5) : (expand5 c).getLsbD 2 = false := by revert c; decide

/-- The top 5 bits of an expanded channel are the channel. -/
@[simp] theorem extractLsb'_expand5 (c : BitVec 5) : (expand5 c).extractLsb' 3 5 = c := by revert c; decide

/-- A channel cut to its top 5 bits and expanded again is at most 7 away (R112). -/
theorem expand5_extractLsb' (c : Byte) :
    expand5 (c.extractLsb' 3 5) = (c &&& 0xF8) ||| (c >>> 6) ∧
      c.toNat ≤ (expand5 (c.extractLsb' 3 5)).toNat + 7 ∧
      (expand5 (c.extractLsb' 3 5)).toNat ≤ c.toNat + 7 := by
  revert c
  decide

/-! ### The four fields of `unpack` (R102, R103) -/

@[simp] theorem unpack_red (w : Packed) (a : Bool) :
    (unpack w a).extractLsb' 0 8 = expand5 (w.extractLsb' 0 5) :=
  BitVec.extractLsb'_append_eq_right

@[simp] theorem unpack_green (w : Packed) (a : Bool) :
    (unpack w a).extractLsb' 8 8 = expand5 (w.extractLsb' 5 5) := by
  rw [unpack, pixel, BitVec.extractLsb'_append_eq_of_le (by decide), BitVec.extractLsb'_append_eq_right]

@[simp] theorem unpack_blue (w : Packed) (a : Bool) :
    (unpack w a).extractLsb' 16 8 = expand5 (w.extractLsb' 10 5) := by
  rw [unpack, pixel, BitVec.extractLsb'_append_eq_of_le (by decide),
    BitVec.extractLsb'_append_eq_of_le (by decide), BitVec.extractLsb'_append_eq_right]

@[simp] theorem unpack_alpha (w : Packed) (a : Bool) : (unpack w a).extractLsb' 24 8 = unpackAlpha w a := by
  rw [unpack, pixel, BitVec.extractLsb'_append_eq_of_le (by decide),
    BitVec.extractLsb'_append_eq_of_le (by decide), BitVec.extractLsb'_append_eq_of_le (by decide)]
  exact BitVec.extractLsb'_eq_self

/-- Bit 15 of a packed colour as a bound (R100). -/
theorem packed_bit15 (w : Packed) : w.getLsbD 15 = decide (32768 ≤ w.toNat) :=
  w.msb_eq_getLsbD_last.symm.trans w.msb_eq_decide

theorem unpackAlpha_toNat (w : Packed) (a : Bool) :
    (unpackAlpha w a).toNat = if a = true ∧ w.toNat < 32768 then 0 else 255 := by
  rw [unpackAlpha, packed_bit15]
  by_cases hw : w.toNat < 32768
  · cases a <;> simp [hw, show ¬ 32768 ≤ w.toNat by omega]
  · cases a <;> simp [hw, show 32768 ≤ w.toNat by omega]

/-! ### The four fields of `pack` (R104, R105) -/

@[simp] theorem pack_red (p : Word) (a : Bool) :
    (pack p a).extractLsb' 0 5 = (p.extractLsb' 0 8).extractLsb' 3 5 := by
  rw [pack, BitVec.extractLsb'_append_eq_right, extractLsb'_extractLsb'_add p (by decide)]

@[simp] theorem pack_green (p : Word) (a : Bool) :
    (pack p a).extractLsb' 5 5 = (p.extractLsb' 8 8).extractLsb' 3 5 := by
  rw [pack, BitVec.extractLsb'_append_eq_of_le (by decide), BitVec.extractLsb'_append_eq_right,
    extractLsb'_extractLsb'_add p (by decide)]

@[simp] theorem pack_blue (p : Word) (a : Bool) :
    (pack p a).extractLsb' 10 5 = (p.extractLsb' 16 8).extractLsb' 3 5 := by
  rw [pack, BitVec.extractLsb'_append_eq_of_le (by decide), BitVec.extractLsb'_append_eq_of_le (by decide),
    BitVec.extractLsb'_append_eq_right, extractLsb'_extractLsb'_add p (by decide)]

@[simp] theorem pack_bit15 (p : Word) (a : Bool) : (pack p a).getLsbD 15 = packAlpha p a := by
  rw [pack, BitVec.getLsbD_append, BitVec.getLsbD_append, BitVec.getLsbD_append]
  simp

theorem packAlpha_eq_decide (p : Word) (a : Bool) :
    packAlpha p a = decide (a = true ∧ 128 ≤ p.toNat / 16777216) := by
  have hp := p.isLt
  have halpha : (p.extractLsb' 24 8).toNat = p.toNat / 16777216 := by
    rw [toNat_extractLsb'_eq_div_mod]
    omega
  rw [packAlpha, halpha, Bool.decide_and, Bool.decide_eq_true]

/-- Alpha packed from alpha unpacked: bit 15, where the variant has it. -/
theorem packAlpha_unpack (w : Packed) (a : Bool) : packAlpha (unpack w a) a = (a && w.getLsbD 15) := by
  rw [packAlpha, unpack_alpha, unpackAlpha]
  cases a <;> cases w.getLsbD 15 <;> rfl

/-! ### A packed colour is its four fields (R100) -/

theorem packed_of_fields (w : Packed) :
    BitVec.ofBool (w.getLsbD 15) ++ w.extractLsb' 10 5 ++ w.extractLsb' 5 5 ++ w.extractLsb' 0 5 = w := by
  apply BitVec.eq_of_toNat_eq
  have hw := w.isLt
  have htop : (w.getLsbD 15).toNat = w.toNat / 32768 := by
    rw [packed_bit15]
    by_cases h : 32768 ≤ w.toNat
    · simp [h]; omega
    · simp [h]; omega
  simp only [toNat_append_eq_add, toNat_extractLsb'_eq_div_mod, BitVec.toNat_ofBool, htop]
  omega

/-- Clearing bit 15 leaves the three channels. -/
theorem extractLsb'_and_low15 (w : Packed) {k : Nat} (hk : k ≤ 10) :
    (w &&& 0x7FFF).extractLsb' k 5 = w.extractLsb' k 5 := by
  have hones : ∀ k ≤ 10, (0x7FFF : Packed).extractLsb' k 5 = BitVec.allOnes 5 := by decide
  rw [BitVec.extractLsb'_and, hones k hk, BitVec.and_allOnes]

theorem bit15_and_low15 (w : Packed) : (w &&& 0x7FFF).getLsbD 15 = false := by
  rw [BitVec.getLsbD_and, show (0x7FFF : Packed).getLsbD 15 = false by decide, Bool.and_false]

/-- Packing what was unpacked keeps the channels, and bit 15 where the variant has it (R112). -/
theorem pack_unpack (w : Packed) (a : Bool) :
    pack (unpack w a) a = BitVec.ofBool (a && w.getLsbD 15) ++ w.extractLsb' 10 5 ++ w.extractLsb' 5 5
      ++ w.extractLsb' 0 5 := by
  rw [← packed_of_fields (pack (unpack w a) a), pack_bit15, packAlpha_unpack, pack_red, pack_green, pack_blue,
    unpack_red, unpack_green, unpack_blue, extractLsb'_expand5, extractLsb'_expand5, extractLsb'_expand5]

end Sys2Proof.Machine

namespace Sys2Proof

open Machine Spec

/-- Settles O23, over the 32 channels. -/
theorem expandFiveBits : Obligations.ExpandFiveBits := by
  unfold Obligations.ExpandFiveBits
  exact ⟨fun c => ⟨expand5_toNat c, expand5_bit2 c⟩, by decide⟩

/-- Settles O24: each channel of `unpack` is the expansion of its own field of `w`. -/
theorem unpackByChannels : Obligations.UnpackByChannels := by
  unfold Obligations.UnpackByChannels
  intro w a
  simp only [unpack_red, unpack_green, unpack_blue, unpack_alpha, expand5_toNat,
    toNat_extractLsb'_eq_div_mod, unpackAlpha_toNat]
  simp

/-- Settles O25: `pack` appends four fields, so its number is the sum of theirs at their places. -/
theorem packByChannels : Obligations.PackByChannels := by
  unfold Obligations.PackByChannels
  intro p a
  have halpha : (packAlpha p a).toNat = if a = true ∧ 128 ≤ p.toNat / 16777216 then 1 else 0 := by
    rw [packAlpha_eq_decide]
    exact Bool.cond_decide _ _ _
  rw [pack, toNat_append_eq_add, toNat_append_eq_add, toNat_append_eq_add, BitVec.toNat_ofBool, halpha]
  simp only [toNat_extractLsb'_eq_div_mod]
  omega

/-- Settles O26: the laws hold field by field, and a packed colour is its four fields. -/
theorem colourRoundTripLaws : Obligations.ColourRoundTripLaws := by
  unfold Obligations.ColourRoundTripLaws
  refine ⟨fun p hp => ?alpha, fun p a k hk => ?channels, fun p => ?noAlpha, fun w => ?packed, fun w => ?masked⟩
  case alpha =>
    rw [unpack_alpha, unpackAlpha, pack_bit15, packAlpha]
    obtain h | h := hp <;> rw [h] <;> rfl
  case channels =>
    simp only [List.mem_cons, List.not_mem_nil, or_false] at hk
    obtain rfl | rfl | rfl := hk
    · simpa only [unpack_red, pack_red] using expand5_extractLsb' (p.extractLsb' 0 8)
    · simpa only [unpack_green, pack_green] using expand5_extractLsb' (p.extractLsb' 8 8)
    · simpa only [unpack_blue, pack_blue] using expand5_extractLsb' (p.extractLsb' 16 8)
  case noAlpha =>
    rw [unpack_alpha]
    rfl
  case packed => rw [pack_unpack, Bool.true_and, packed_of_fields]
  case masked =>
    rw [pack_unpack, Bool.false_and, ← packed_of_fields (w &&& 0x7FFF), bit15_and_low15,
      extractLsb'_and_low15 w (by decide), extractLsb'_and_low15 w (by decide),
      extractLsb'_and_low15 w (by decide)]

end Sys2Proof
end

section
/-! The colour commands (40_color_packing.md), and before them what every buffer command shares: its end, its checks
in their order, its output with the frame, and its source as elements. -/

namespace Sys2Proof.Machine

open Spec

/-! ### How a command ends, by the end of its rule (R194, R203, R214) -/

theorem exec_of_done {i : Instr} {s u : State} (h : ruleOf i s = .done u) :
    exec i s = .next (succeeded u) := by
  rw [exec_eq_finish, h]
  rfl

theorem exec_of_raised {i : Instr} {s : State} {e : ErrorCode} (h : ruleOf i s = .raised e) :
    exec i s = .next (raised s e.code) := by
  rw [exec_eq_finish, h]
  rfl

theorem exec_of_stopped {i : Instr} {s : State} (h : ruleOf i s = .stopped .unwrittenByte) : Faults i s := by
  rw [Faults, exec_eq_finish, h]
  rfl

/-! ### The checks of a rule, in their order (R204) -/

/-- One check: where the rule raises `e` under the condition, the statement's list has that error next. -/
theorem checked_cons {i : Instr} {s : State} {bad c rest : Prop} [Decidable c] {more : List (Prop × BitVec 4)}
    {v : Verdict} (e : ErrorCode) (h : ruleOf i s = if c then .raised e else v) (hc : c ↔ bad)
    (hmore : ¬ bad → ruleOf i s = v → checked i s more rest) : checked i s ((bad, e.code) :: more) rest := by
  refine ⟨fun hbad => exec_of_raised ?_, fun hbad => hmore hbad ?_⟩
  · rw [h, if_pos (hc.2 hbad)]
  · rw [h, if_neg (mt hc.1 hbad)]

theorem not_inMem_iff (s : State) (a n : Nat) : (!s.inMem a n) = true ↔ ¬ InMem s a n := by
  rw [Bool.not_eq_true', ← Bool.not_eq_true, State.inMem_iff, InMem]

theorem not_disjoint_iff (a n b m : Nat) : (!disjoint a n b m) = true ↔ ¬ Apart a n b m := by
  rw [Bool.not_eq_true', ← Bool.not_eq_true, disjoint_iff, Apart]

/-- What is left to show of CONV, PAD and CROP: their end once no check fails, the output then lying in `MEM`. -/
theorem checked_copyChecks {i : Instr} {s : State} {need n out : Nat} {elem : Nat → Option (List Byte)} {rest : Prop}
    (h : ruleOf i s = copyRule s need n out elem)
    (hrest : InMem s s.dstAddr.toNat out →
      ruleOf i s = load (gather n elem) (fun bytes => .done (s.commitOutput out bytes)) → rest) :
    checked i s (copyChecks s need out) rest :=
  checked_cons .invalidDimensions h Iff.rfl fun _ h =>
  checked_cons .addressRange h (not_inMem_iff ..) fun _ h =>
  checked_cons .truncatedBuffer h Iff.rfl fun _ h =>
  checked_cons .addressRange h (not_inMem_iff ..) fun hdst h =>
  checked_cons .overlap h (not_disjoint_iff ..) fun _ h => hrest (not_not.1 hdst) h

/-! ### The output and its frame (R35, R194) -/

/-- A count of bytes that fit in `MEM` fits the register OUT_LEN. -/
theorem toNat_ofNat_of_inMem {s : State} {a n : Nat} (h : InMem s a n) : (BitVec.ofNat 32 n).toNat = n := by
  have hsize := s.memSize_le
  have hn : n = 0 ∨ a + n ≤ s.memSize := h
  exact Nat.mod_eq_of_lt (by omega)

theorem sameOutside_commitOutput (s : State) {out : Nat} {bytes : List Byte} (hl : bytes.length = out) :
    SameOutside s (s.commitOutput out bytes) s.dstAddr.toNat out := by
  intro x hx
  rw [State.commitOutput_mem, Memory.read_writeBytes, hl, if_neg hx]

theorem outputs_of_done {i : Instr} {s : State} {out : Nat} {bytes : List Byte}
    (h : ruleOf i s = .done (s.commitOutput out bytes)) (hl : bytes.length = out)
    (hm : InMem s s.dstAddr.toNat out) : Outputs i s (s.commitOutput out bytes).succeed out :=
  ⟨exec_of_done h, rfl, toNat_ofNat_of_inMem hm, sameOutside_commitOutput s hl⟩

/-! ### The source as elements of `e` bytes (R68) -/

theorem written_mul_iff {s : State} {a e n : Nat} :
    Written s a (e * n) ↔ ∀ p < n, Written s (a + e * p) e := by
  constructor
  · intro h p hp k hk
    have hfit : e * (p + 1) ≤ e * n := Nat.mul_le_mul_left e hp
    rw [Nat.mul_succ] at hfit
    rw [Nat.add_assoc]
    exact h _ (by omega)
  · intro h k hk
    have he : 0 < e := Nat.pos_of_mul_pos_right (Nat.zero_lt_of_lt hk)
    have hbyte := h (k / e) (Nat.div_lt_of_lt_mul hk) (k % e) (Nat.mod_lt _ he)
    rwa [Nat.add_assoc, Nat.div_add_mod] at hbyte

/-! ### CONV5551 and CONV555 (R110, R111) -/

/-- The bytes of output pixel `p`. -/
def convElem (hasAlpha : Bool) (s : State) (p : Nat) : Option (List Byte) :=
  (s.mem.packedAt (s.src + 2 * p)).map fun w => pixelBytes (unpack w hasAlpha)

theorem convRule_eq_copyRule (a : Bool) (s : State) :
    convRule a s = copyRule s (2 * N s) (N s) (4 * N s) (convElem a s) := rfl

theorem convElem_eq_some {a : Bool} {s : State} {p : Nat} {x : List Byte} :
    convElem a s p = some x ↔ ∃ w, s.mem.readNat (s.src + 2 * p) 2 = some w ∧
      pixelBytes (unpack (BitVec.ofNat 16 w) a) = x := by
  simp [convElem, Memory.packedAt]

theorem convElem_isSome {a : Bool} {s : State} {p : Nat} :
    (convElem a s p).isSome = true ↔ Written s (s.src + 2 * p) 2 := by
  rw [convElem, Memory.packedAt, Option.isSome_map, Option.isSome_map, Memory.readNat_isSome, Written]

theorem length_of_convElem {a : Bool} {s : State} {p : Nat} {x : List Byte} (h : convElem a s p = some x) :
    x.length = 4 := length_of_map_pixelBytes h

/-- The loop completes exactly when the whole source is written. -/
theorem gather_convElem_isSome {a : Bool} {s : State} {n : Nat} :
    (gather n (convElem a s)).isSome = true ↔ Written s s.src (2 * n) := by
  simp only [gather_isSome, convElem_isSome, written_mul_iff]

/-- Each output pixel is the unpacked source word (R53, R54). -/
theorem commitOutput_pixel {a : Bool} {s : State} {n p : Nat} {bytes : List Byte}
    (h : gather n (convElem a s) = some bytes) (hp : p < n) (out : Nat) :
    ∃ w, s.mem.readNat (s.src + 2 * p) 2 = some w ∧
      (s.commitOutput out bytes).mem.readNat (s.dst + 4 * p) 4
        = some (unpack (BitVec.ofNat 16 w) a).toNat := by
  have hlen : ∀ p < n, ∀ x, convElem a s p = some x → x.length = 4 := fun _ _ _ => length_of_convElem
  obtain ⟨w, hw, hx⟩ := convElem_eq_some.1 (gather_slice h hlen hp)
  refine ⟨w, hw, ?_⟩
  rw [Memory.readNat, commitOutput_readBytes h hlen hp, convElem_eq_some.2 ⟨w, hw, rfl⟩, Option.map_some,
    leNat_pixelBytes]

theorem convRule_holds {i : Instr} {a : Bool} (hi : ∀ s, ruleOf i s = convRule a s) : ConvRule i a := by
  intro s
  refine checked_copyChecks ((hi s).trans (convRule_eq_copyRule a s)) fun hm hrule =>
    ⟨fun hw => exec_of_stopped ?_, fun hw => ?_⟩
  · have hnone : gather (N s) (convElem a s) = none := by
      rw [← Option.not_isSome_iff_eq_none, gather_convElem_isSome]
      exact hw
    rw [hrule, hnone]
    rfl
  · obtain ⟨bytes, hg⟩ := Option.isSome_iff_exists.1 (gather_convElem_isSome (a := a).2 hw)
    rw [hg] at hrule
    have hl := gather_length hg fun _ _ _ => length_of_convElem
    exact ⟨_, outputs_of_done hrule hl hm, fun p hp => commitOutput_pixel hg hp (4 * N s)⟩

end Sys2Proof.Machine

namespace Sys2Proof

open Machine

/-- Settles O27. -/
theorem unpk5551Rule : Obligations.Unpk5551Rule := by
  unfold Obligations.Unpk5551Rule
  exact ⟨by decide, fun _ => exec_of_done rfl⟩

/-- Settles O28. -/
theorem unpk555Rule : Obligations.Unpk555Rule := by
  unfold Obligations.Unpk555Rule
  exact ⟨by decide, fun _ => exec_of_done rfl⟩

/-- Settles O29. -/
theorem pack5551Rule : Obligations.Pack5551Rule := by
  unfold Obligations.Pack5551Rule
  exact ⟨by decide, fun _ => exec_of_done rfl⟩

/-- Settles O30. -/
theorem pack555Rule : Obligations.Pack555Rule := by
  unfold Obligations.Pack555Rule
  exact ⟨by decide, fun _ => exec_of_done rfl⟩

/-- Settles O32: the rule of CONV5551 is `convRule` with alpha. -/
theorem conv5551Rule : Obligations.Conv5551Rule := by
  unfold Obligations.Conv5551Rule
  exact ⟨by decide, convRule_holds fun _ => rfl⟩

/-- Settles O33: the rule of CONV555 is `convRule` without alpha. -/
theorem conv555Rule : Obligations.Conv555Rule := by
  unfold Obligations.Conv555Rule
  exact ⟨by decide, convRule_holds fun _ => rfl⟩

end Sys2Proof
end

section
/-! The geometry commands (41_geometry.md): the error of a WIDTH that is too large, SWID, PAD, CROP, and CROP as the
inverse of PAD. -/

namespace Sys2Proof.Machine

open Spec

/-! ### The rule of a command whose ESIZE or FMT is legal (R73, R74) -/

theorem ruleOf_pad {e : ESize} (h : e.legal = true) (s : State) : ruleOf (.pad e) s = padRule (elemBytes e) s :=
  if_pos h

theorem ruleOf_crop {e : ESize} (h : e.legal = true) (s : State) : ruleOf (.crop e) s = cropRule (elemBytes e) s :=
  if_pos h

theorem ruleOf_hdr {f : Fmt} (h : f.legal = true) (s : State) : ruleOf (.hdr f) s = hdrRule f s :=
  if_pos h

theorem ESize.legal_of_ne_reserved {e : ESize} (h : e ≠ .reserved) : e.legal = true := by
  cases e with
  | reserved => exact absurd rfl h
  | _ => rfl

/-! ### Which rules raise INVALID_DIMENSIONS (R132) -/

/-- Only a rule that raises an error reports its code; a command that is done leaves ERRCODE 0. -/
theorem reports_invalidDimensions_iff {i : Instr} {s : State} :
    (∃ t, exec i s = .next t ∧ t.errCode = 3) ↔ ruleOf i s = .raised .invalidDimensions := by
  constructor
  · rintro ⟨t, ht, hcode⟩
    rw [exec_eq_finish] at ht
    obtain ⟨u, -, rfl⟩ | ⟨e, he, rfl⟩ := finish_next ht
    · simp at hcode
    · cases e with
      | invalidDimensions => exact he
      | _ => simp [ErrorCode.code] at hcode
  · exact fun h => ⟨_, exec_of_raised h, rfl⟩

/-- A rule whose first check raises `e`, and which raises it nowhere else. -/
theorem guard_eq_raised_iff {c : Prop} [Decidable c] {e : ErrorCode} {v : Verdict} (hv : v ≠ .raised e) :
    (if c then .raised e else v) = .raised e ↔ c := by
  split_ifs with h
  · simp [h]
  · simp [h, hv]

theorem guard_ne_raised {c : Prop} [Decidable c] {e e' : ErrorCode} {v : Verdict} (hv : v ≠ .raised e)
    (he : e' ≠ e := by decide) : (if c then .raised e' else v) ≠ .raised e := by
  split_ifs
  · simpa using he
  · exact hv

theorem load_ne_raised {α : Type} {v : Option α} {k : α → Verdict} {e : ErrorCode}
    (hk : ∀ x, k x ≠ .raised e) : load v k ≠ .raised e := by
  cases v with
  | none => exact Verdict.noConfusion
  | some x => exact hk x

theorem copyRule_raises_invalidDimensions {s : State} {need n out : Nat} {elem : Nat → Option (List Byte)} :
    copyRule s need n out elem = .raised .invalidDimensions ↔ maxWidth < s.w :=
  guard_eq_raised_iff <| guard_ne_raised <| guard_ne_raised <| guard_ne_raised <| guard_ne_raised <|
    load_ne_raised fun _ => Verdict.noConfusion

theorem swidRule_raises_invalidDimensions {s : State} :
    swidRule s = .raised .invalidDimensions ↔ maxWidth < s.w :=
  guard_eq_raised_iff Verdict.noConfusion

theorem pal8Rule_raises_invalidDimensions {s : State} :
    pal8Rule s = .raised .invalidDimensions ↔ maxWidth < s.w :=
  guard_eq_raised_iff <| guard_ne_raised <| guard_ne_raised <| guard_ne_raised <| guard_ne_raised <|
    guard_ne_raised <| guard_ne_raised <| load_ne_raised fun _ => load_ne_raised fun _ => Verdict.noConfusion

theorem pal4Rule_raises_invalidDimensions {s : State} :
    pal4Rule s = .raised .invalidDimensions ↔ maxWidth < s.w :=
  guard_eq_raised_iff <| guard_ne_raised <| guard_ne_raised <| guard_ne_raised <| guard_ne_raised <|
    guard_ne_raised <| load_ne_raised fun _ => load_ne_raised fun _ => Verdict.noConfusion

theorem checkMagic_ne_raised {s : State} {v : Verdict} {e : ErrorCode} (hv : v ≠ .raised e)
    (he : .malformedHeader ≠ e := by decide) : checkMagic s v ≠ .raised e := by
  unfold checkMagic
  split_ifs
  · refine load_ne_raised fun x => ?_
    split_ifs
    · exact hv
    · simpa using he
  · exact hv

/-- HDR computes no storage width. -/
theorem hdrRule_ne_invalidDimensions (f : Fmt) (s : State) : hdrRule f s ≠ .raised .invalidDimensions := by
  have hsections : ∀ lens, sectionsRule f s lens ≠ .raised .invalidDimensions := fun _ =>
    guard_ne_raised <| guard_ne_raised Verdict.noConfusion
  have htable : ∀ count, tableRule f s count ≠ .raised .invalidDimensions := fun _ =>
    guard_ne_raised <| guard_ne_raised <| load_ne_raised hsections
  exact guard_ne_raised <| guard_ne_raised <| checkMagic_ne_raised <| load_ne_raised htable

/-! ### SWID (R133) -/

theorem toNat_ofNat_pow2ceil {n : Nat} (h : n ≤ maxWidth) : (BitVec.ofNat 32 (pow2ceil n)).toNat = pow2ceil n := by
  have hle : pow2ceil n ≤ 2 ^ 31 := pow2ceil_least h
  exact Nat.mod_eq_of_lt (by omega)

theorem swid_checked (s : State) :
    checked .swid s [(2 ^ 31 < s.w, 3)]
      (∃ t, exec .swid s = .next t ∧ t = succeeded { s with swidth := t.swidth } ∧ t.swidth.toNat = SW s) :=
  checked_cons .invalidDimensions (Eq.refl (swidRule s)) Iff.rfl fun hw hrule =>
    ⟨_, exec_of_done hrule, rfl, toNat_ofNat_pow2ceil (Nat.le_of_not_lt hw)⟩

/-! ### What a statement of checks says of a run that succeeds -/

theorem rest_of_checked {i : Instr} {s : State} {checks : List (Prop × BitVec 4)} {rest : Prop}
    (h : checked i s checks rest) (hok : ∀ c ∈ checks, ¬ c.1) : rest := by
  induction checks with
  | nil => exact h
  | cons c more ih =>
    obtain ⟨-, hmore⟩ := h
    exact ih (hmore (hok c List.mem_cons_self)) fun c hc => hok c (List.mem_cons_of_mem _ hc)

theorem checks_of_succeeds {i : Instr} {s t : State} {checks : List (Prop × BitVec 4)} {rest : Prop}
    (h : checked i s checks rest) (ht : exec i s = .next t) (he : t.err = false) : ∀ c ∈ checks, ¬ c.1 := by
  induction checks with
  | nil => simp
  | cons c more ih =>
    obtain ⟨hraise, hmore⟩ := h
    have hc : ¬ c.1 := by
      intro hbad
      cases ht.symm.trans (hraise hbad)
      exact Bool.noConfusion he
    exact List.forall_mem_cons.2 ⟨hc, ih (hmore hc)⟩

/-! ### A copy between grids of rows (R134, R135) -/

/-- Element `p` of an output of rows of `C` elements: row `p / C`, column `p % C`, which copies the column
`col (p % C)` of that row of the source, whose rows have `R` elements of `e` bytes. -/
def gridElem (s : State) (e C R : Nat) (col : Nat → Nat) (p : Nat) : Option (List Byte) :=
  s.mem.readBytes (s.src + e * (p / C * R + col (p % C))) e

theorem padRule_eq_copyRule (e : Nat) (s : State) :
    padRule e s = copyRule s (e * s.w * s.h) (s.sw * s.h) (e * s.sw * s.h)
      (gridElem s e s.sw s.w fun c => min c (s.w - 1)) := rfl

theorem cropRule_eq_copyRule (e : Nat) (s : State) :
    cropRule e s = copyRule s (e * s.sw * s.h) (s.w * s.h) (e * s.w * s.h) (gridElem s e s.w s.sw id) := rfl

theorem mul_add_lt_mul {y c C H : Nat} (hy : y < H) (hc : c < C) : y * C + c < C * H := by
  have hrow : (y + 1) * C ≤ H * C := Nat.mul_le_mul_right C hy
  rw [Nat.succ_mul, Nat.mul_comm H] at hrow
  omega

theorem mul_add_div_eq {y c C : Nat} (hc : c < C) : (y * C + c) / C = y := by
  rw [Nat.mul_comm, Nat.mul_add_div (Nat.zero_lt_of_lt hc), Nat.div_eq_of_lt hc, Nat.add_zero]

/-- Counting the elements of a grid is counting its rows and the columns of each. -/
theorem forall_lt_mul_iff {C H : Nat} {P : Nat → Nat → Prop} :
    (∀ p < C * H, P (p / C) (p % C)) ↔ ∀ y < H, ∀ c < C, P y c := by
  constructor
  · intro h y hy c hc
    have hp := h (y * C + c) (mul_add_lt_mul hy hc)
    rwa [mul_add_div_eq hc, Nat.mul_add_mod_of_lt hc] at hp
  · intro h p hp
    have hC : 0 < C := Nat.pos_of_mul_pos_right (Nat.zero_lt_of_lt hp)
    exact h _ (Nat.div_lt_of_lt_mul hp) _ (Nat.mod_lt _ hC)

/-- The bytes of rows of `W` elements of `e` bytes are the bytes of each element of each row. -/
theorem forall_byte_iff_grid {e W H : Nat} {P : Nat → Prop} :
    (∀ k < e * W * H, P k) ↔ ∀ y < H, ∀ c < W, ∀ j < e, P (e * (y * W + c) + j) :=
  calc (∀ k < e * W * H, P k)
    _ ↔ ∀ k < e * (W * H), P (e * (k / e) + k % e) := by simp only [Nat.mul_assoc, Nat.div_add_mod]
    _ ↔ ∀ p < W * H, ∀ j < e, P (e * p + j) := forall_lt_mul_iff (P := fun p j => P (e * p + j))
    _ ↔ ∀ p < W * H, ∀ j < e, P (e * (p / W * W + p % W) + j) := by simp only [Nat.div_add_mod']
    _ ↔ _ := forall_lt_mul_iff (P := fun y c => ∀ j < e, P (e * (y * W + c) + j))

theorem written_iff_grid {s : State} {a e W H : Nat} :
    Written s a (e * W * H) ↔ ∀ y < H, ∀ c < W, Written s (a + e * (y * W + c)) e := by
  simp only [Written, Nat.add_assoc]
  exact forall_byte_iff_grid (P := fun k => (s.mem.read (a + k)).isSome = true)

theorem gridElem_at (s : State) {e C R c : Nat} {col : Nat → Nat} (y : Nat) (hc : c < C) :
    gridElem s e C R col (y * C + c) = s.mem.readBytes (s.src + e * (y * R + col c)) e := by
  rw [gridElem, mul_add_div_eq hc, Nat.mul_add_mod_of_lt hc]

theorem length_of_gridElem {s : State} {e C R p : Nat} {col : Nat → Nat} {x : List Byte}
    (h : gridElem s e C R col p = some x) : x.length = e := Memory.readBytes_length h

/-- The copy completes exactly when each element it reads is written (R68). -/
theorem gather_gridElem_isSome {s : State} {e C R H : Nat} {col : Nat → Nat} :
    (gather (C * H) (gridElem s e C R col)).isSome = true ↔
      ∀ y < H, ∀ c < C, Written s (s.src + e * (y * R + col c)) e := by
  rw [← forall_lt_mul_iff, gather_isSome]
  simp only [gridElem, Memory.readBytes_isSome, Written]

theorem commitOutput_gridElem {s : State} {e C R H y c k : Nat} {col : Nat → Nat} {bytes : List Byte}
    (h : gather (C * H) (gridElem s e C R col) = some bytes) (hy : y < H) (hc : c < C) (hk : k < e) (out : Nat) :
    (s.commitOutput out bytes).mem.read (s.dst + e * (y * C + c) + k)
      = s.mem.read (s.src + e * (y * R + col c) + k) := by
  have hp := mul_add_lt_mul hy hc
  have hlen : ∀ p < C * H, ∀ x, gridElem s e C R col p = some x → x.length = e := fun _ _ _ => length_of_gridElem
  have hout := commitOutput_readBytes (s := s) (out := out) h hlen hp
  have hsrc := gather_slice h hlen hp
  rw [hsrc] at hout
  rw [gridElem_at s y hc] at hsrc
  rw [(Memory.readBytes_eq_some.1 hout).2 k hk, (Memory.readBytes_eq_some.1 hsrc).2 k hk]

/-- What PAD and CROP do: the checks, then the output and its frame, or a fault at an unwritten element. -/
theorem checked_gridCopy {i : Instr} {s : State} {need out e C R H : Nat} {col : Nat → Nat}
    (hi : ruleOf i s = copyRule s need (C * H) out (gridElem s e C R col)) (ho : out = e * C * H) {read : Prop}
    (hread : read ↔ ∀ y < H, ∀ c < C, Written s (s.src + e * (y * R + col c)) e) :
    checked i s (copyChecks s need out)
      ((¬ read → Faults i s) ∧
        (read → ∃ t, Outputs i s t out ∧ ∀ y < H, ∀ c < C, ∀ k < e,
          t.mem.read (s.dst + e * (y * C + c) + k) = s.mem.read (s.src + e * (y * R + col c) + k))) := by
  rw [← gather_gridElem_isSome] at hread
  refine checked_copyChecks hi fun hm hrule => ⟨fun hr => exec_of_stopped ?_, fun hr => ?_⟩
  · rw [hrule, Option.not_isSome_iff_eq_none.1 (mt hread.2 hr)]
    rfl
  · obtain ⟨bytes, hg⟩ := Option.isSome_iff_exists.1 (hread.1 hr)
    rw [hg] at hrule
    have hl : bytes.length = out := by
      rw [ho, Nat.mul_assoc]
      exact gather_length hg fun _ _ _ => length_of_gridElem
    exact ⟨_, outputs_of_done hrule hl hm, fun y hy c hc k hk => commitOutput_gridElem hg hy hc hk out⟩

/-! ### PAD (R134) -/

/-- PAD reads every element of the source: element `c` of a row is column `c` of the output, and each column of the
output copies an element of its row. -/
theorem written_source_iff_padElems {s : State} {a e W H : Nat} :
    Written s a (e * W * H) ↔
      ∀ y < H, ∀ c < pow2ceil W, Written s (a + e * (y * W + min c (W - 1))) e := by
  rw [written_iff_grid]
  constructor
  · intro h y hy c hc
    have hW : W ≠ 0 := fun h0 => by simp [h0] at hc
    exact h y hy _ (by omega)
  · intro h y hy c hc
    have hstored := h y hy c (Nat.lt_of_lt_of_le hc (le_pow2ceil W))
    rwa [Nat.min_eq_left (by omega)] at hstored

theorem pad_checked {e : ESize} (he : e ≠ .reserved) (s : State) :
    checked (.pad e) s (copyChecks s (size e * s.w * s.h) (size e * SW s * s.h))
      ((¬ Written s s.src (size e * s.w * s.h) → Faults (.pad e) s) ∧
        (Written s s.src (size e * s.w * s.h) → ∃ t, Outputs (.pad e) s t (size e * SW s * s.h) ∧
          ∀ y < s.h, ∀ c < SW s, ∀ k < size e,
            t.mem.read (s.dst + size e * (y * SW s + c) + k)
              = s.mem.read (s.src + size e * (y * s.w + min c (s.w - 1)) + k))) := by
  rw [size_eq_elemBytes]
  have hrule := (ruleOf_pad (ESize.legal_of_ne_reserved he) s).trans (padRule_eq_copyRule _ s)
  exact checked_gridCopy hrule rfl written_source_iff_padElems

/-! ### CROP (R135) -/

/-- CROP reads the first `W` elements of each storage row. -/
theorem written_rows_iff_cropElems {s : State} {a e W S H : Nat} :
    (∀ y < H, Written s (a + e * (y * S)) (e * W)) ↔ ∀ y < H, ∀ c < W, Written s (a + e * (y * S + c)) e := by
  simp only [written_mul_iff, Nat.mul_add, Nat.add_assoc]

theorem crop_checked {e : ESize} (he : e ≠ .reserved) (s : State) :
    checked (.crop e) s (copyChecks s (size e * SW s * s.h) (size e * s.w * s.h))
      ((¬ (∀ y < s.h, Written s (s.src + size e * (y * SW s)) (size e * s.w)) → Faults (.crop e) s) ∧
        ((∀ y < s.h, Written s (s.src + size e * (y * SW s)) (size e * s.w)) →
          ∃ t, Outputs (.crop e) s t (size e * s.w * s.h) ∧
            ∀ y < s.h, ∀ c < s.w, ∀ k < size e,
              t.mem.read (s.dst + size e * (y * s.w + c) + k)
                = s.mem.read (s.src + size e * (y * SW s + c) + k))) := by
  rw [size_eq_elemBytes]
  have hrule := (ruleOf_crop (ESize.legal_of_ne_reserved he) s).trans (cropRule_eq_copyRule _ s)
  exact checked_gridCopy hrule rfl written_rows_iff_cropElems

/-! ### CROP after PAD (R136) -/

/-- What a PAD that succeeded has done: it has read its whole source, and element `c` of each row of the source stands
at column `c` of that row of the output. -/
theorem pad_succeeds {e : ESize} (he : e ≠ .reserved) {s t : State} (h : exec (.pad e) s = .next t)
    (herr : t.err = false) :
    s.w ≤ maxWidth ∧ InMem s s.dst (size e * SW s * s.h) ∧ Written s s.src (size e * s.w * s.h) ∧
      ∃ m l, t = succeeded { s with mem := m, outLen := l } ∧ l.toNat = size e * SW s * s.h ∧
        ∀ y < s.h, ∀ c < s.w, ∀ k < size e,
          m.read (s.dst + size e * (y * SW s + c) + k) = s.mem.read (s.src + size e * (y * s.w + c) + k) := by
  have hchecks := checks_of_succeeds (pad_checked he s) h herr
  obtain ⟨hfault, hdone⟩ := rest_of_checked (pad_checked he s) hchecks
  have hw : Written s s.src (size e * s.w * s.h) := by
    by_contra hw
    cases h.symm.trans (hfault hw)
  obtain ⟨t', ⟨hexec, hframe, hlen, -⟩, hcopy⟩ := hdone hw
  cases h.symm.trans hexec
  simp only [copyChecks, List.forall_mem_cons, not_not] at hchecks
  obtain ⟨hwidth, -, -, hdst, -⟩ := hchecks
  refine ⟨Nat.le_of_not_lt hwidth, hdst, hw, _, _, hframe, hlen, fun y hy c hc k hk => ?_⟩
  have hstored := hcopy y hy c (Nat.lt_of_lt_of_le hc (le_pow2ceil s.w)) k hk
  rwa [Nat.min_eq_left (by omega)] at hstored

/-- `t` with the output of its last command as the source, and `d` as the destination. -/
def State.chainedTo (t : State) (d : Word) : State :=
  { t with srcAddr := t.dstAddr, srcLen := t.outLen, dstAddr := d }

/-- CROP of a source whose rows begin with the bytes `f`, row after row, writes `f`. -/
theorem crop_writes {e : ESize} (he : e ≠ .reserved) {v : State} {f : Nat → Option Byte}
    (hok : ∀ c ∈ copyChecks v (size e * SW v * v.h) (size e * v.w * v.h), ¬ c.1)
    (hf : ∀ y < v.h, ∀ c < v.w, ∀ k < size e,
      v.mem.read (v.src + size e * (y * SW v + c) + k) = f (size e * (y * v.w + c) + k))
    (hsome : ∀ k < size e * v.w * v.h, (f k).isSome = true) :
    ∃ u, Outputs (.crop e) v u (size e * v.w * v.h) ∧
      ∀ k < size e * v.w * v.h, u.mem.read (v.dst + k) = f k := by
  obtain ⟨-, hdone⟩ := rest_of_checked (crop_checked he v) hok
  have hrows : ∀ y < v.h, Written v (v.src + size e * (y * SW v)) (size e * v.w) := by
    refine written_rows_iff_cropElems.2 fun y hy c hc k hk => ?_
    rw [hf y hy c hc k hk]
    exact forall_byte_iff_grid.1 hsome y hy c hc k hk
  obtain ⟨u, hu, hcopy⟩ := hdone hrows
  refine ⟨u, hu, forall_byte_iff_grid.2 fun y hy c hc k hk => ?_⟩
  rw [← Nat.add_assoc, hcopy y hy c hc k hk, hf y hy c hc k hk]

theorem crop_undoes_pad {e : ESize} (he : e ≠ .reserved) {s t : State} (h : exec (.pad e) s = .next t)
    (herr : t.err = false) {d : Word} (hd : InMem s d.toNat (size e * s.w * s.h))
    (hclear : Apart d.toNat (size e * s.w * s.h) t.dst t.outLen.toNat) :
    ∃ u, Outputs (.crop e) (t.chainedTo d) u (size e * s.w * s.h) ∧
      ∀ k < size e * s.w * s.h, u.mem.read (d.toNat + k) = s.mem.read (s.src + k) := by
  obtain ⟨hwidth, hout, hw, m, l, rfl, hl, hcopy⟩ := pad_succeeds he h herr
  refine crop_writes he (v := State.chainedTo _ d) (f := fun k => s.mem.read (s.src + k)) ?_ ?_ hw
  · simp only [copyChecks, List.forall_mem_cons, not_not]
    refine ⟨Nat.not_lt_of_le hwidth, ?_, Nat.not_lt_of_le hl.ge, hd, ?_, by simp⟩
    · exact hl.symm ▸ hout
    · exact hl ▸ hclear
  · exact fun y hy c hc k hk =>
      (hcopy y hy c hc k hk).trans (congrArg s.mem.read (Nat.add_assoc ..))

end Sys2Proof.Machine

namespace Sys2Proof

open Machine Spec

/-- Settles O15: each of the seven rules begins with the check of WIDTH, and no rule raises this error elsewhere. -/
theorem invalidDimensionsExactly : Obligations.InvalidDimensionsExactly := by
  unfold Obligations.InvalidDimensionsExactly
  intro i s hwf
  rw [reports_invalidDimensions_iff]
  change _ ↔ maxWidth < s.w ∧ _
  cases i with
  | nop | unpk5551 | unpk555 | pack5551 | pack555 => simp [ruleOf]
  | swid => simp [ruleOf, swidRule_raises_invalidDimensions]
  | conv5551 | conv555 => simp [ruleOf, convRule, copyRule_raises_invalidDimensions]
  | pad e => simp [ruleOf_pad hwf, padRule, copyRule_raises_invalidDimensions]
  | crop e => simp [ruleOf_crop hwf, cropRule, copyRule_raises_invalidDimensions]
  | pal8 => simp [ruleOf, pal8Rule_raises_invalidDimensions]
  | pal4 => simp [ruleOf, pal4Rule_raises_invalidDimensions]
  | hdr f => simp [ruleOf_hdr hwf, hdrRule_ne_invalidDimensions]

/-- Settles O35. -/
theorem swidRule : Obligations.SwidRule := by
  unfold Obligations.SwidRule
  exact ⟨by decide, swid_checked⟩

/-- Settles O36. -/
theorem padRule : Obligations.PadRule := by
  unfold Obligations.PadRule
  exact ⟨by decide, by decide, by decide, fun _ s he => pad_checked he s⟩

/-- Settles O37. -/
theorem cropRule : Obligations.CropRule := by
  unfold Obligations.CropRule
  exact ⟨by decide, by decide, by decide, fun _ s he => crop_checked he s⟩

/-- Settles O38: the columns past WIDTH that PAD adds to each row are the ones CROP does not read. -/
theorem cropUndoesPad : Obligations.CropUndoesPad := by
  unfold Obligations.CropUndoesPad
  intro e s t d he hpad herr len hd hclear
  obtain ⟨u, ⟨hexec, hframe, hlen, -⟩, hbytes⟩ := crop_undoes_pad he hpad herr hd hclear
  exact ⟨u, hexec, congrArg State.err hframe, hlen, hbytes⟩

end Sys2Proof
end

section
/-! The container header parser (42_container_header.md): the unchecked magic, the rule of HDR, and the header that
reads back. -/

namespace Sys2Proof.Machine

open Spec

theorem Fmt.legal_of_ne_reserved {f : Fmt} (h : f ≠ .reserved) : f.legal = true :=
  not_imp_comm.1 Fmt.eq_reserved_of_not_legal h

/-! ### The table of lengths (R55, R56) -/

theorem Memory.readWords_congr {m m' : Memory} {a n : Nat}
    (h : ∀ k < n, m.readNat (a + 4 * k) 4 = m'.readNat (a + 4 * k) 4) : m.readWords a n = m'.readWords a n := by
  refine Option.ext fun ls => ?_
  rw [Memory.readWords_eq_some, Memory.readWords_eq_some]
  exact and_congr_right fun _ => forall₂_congr fun k hk => by rw [h k hk]

theorem Memory.readWords_isSome {m : Memory} {a n : Nat} :
    (m.readWords a n).isSome = true ↔ ∀ k < n, (m.readNat (a + 4 * k) 4).isSome = true := by
  induction n generalizing a with
  | zero => simp [Memory.readWords]
  | succ n ih =>
    rw [Memory.readWords, Nat.forall_lt_succ_left]
    cases hv : m.readNat a 4 with
    | none => simp
    | some v => simp [ih, Nat.mul_add, Nat.add_assoc, Nat.add_comm 4]

/-- The table is read exactly when all its bytes are written (R68). -/
theorem readWords_isSome_iff_written {s : State} {a n : Nat} :
    (s.mem.readWords a n).isSome = true ↔ Written s a (4 * n) := by
  rw [Memory.readWords_isSome, written_mul_iff]
  exact forall₂_congr fun _ _ => Memory.readNat_isSome

/-! ### An unchecked magic is not read (R151) -/

theorem checkMagic_unchecked {s : State} (h : s.magicCheck = false) (v : Verdict) : checkMagic s v = v :=
  if_neg (by simp [h])

theorem sectionsRule_withMem (f : Fmt) (s : State) (m : Memory) (lens : List Nat) :
    sectionsRule f (s.withMem m) lens = (sectionsRule f s lens).mapDone (·.withMem m) := by
  simp only [sectionsRule, apply_ite (Verdict.mapDone _), Verdict.mapDone_done, Verdict.mapDone_raised]
  rfl

theorem tableRule_withMem {f : Fmt} {s : State} {m : Memory} {count : Nat}
    (h : m.readWords (s.src + 8) count = s.mem.readWords (s.src + 8) count) :
    tableRule f (s.withMem m) count = (tableRule f s count).mapDone (·.withMem m) := by
  simp only [tableRule, apply_ite (Verdict.mapDone _), Verdict.mapDone_load, Verdict.mapDone_raised,
    ← sectionsRule_withMem, ← h]
  rfl

/-- With MAGIC_CHECK = 0 the rule of HDR reads no byte before the count. -/
theorem hdrRule_withMem (f : Fmt) {s : State} {m : Memory} (hc : s.magicCheck = false)
    (hm : ∀ x, s.src + 4 ≤ x → m.read x = s.mem.read x) :
    hdrRule f (s.withMem m) = (hdrRule f s).mapDone (·.withMem m) := by
  have hnat : ∀ a, s.src + 4 ≤ a → m.readNat a 4 = s.mem.readNat a 4 := fun a ha =>
    Memory.readNat_congr fun k _ => hm _ (by omega)
  have htable : ∀ count, tableRule f (s.withMem m) count = (tableRule f s count).mapDone (·.withMem m) :=
    fun _ => tableRule_withMem (Memory.readWords_congr fun k _ => hnat _ (by omega))
  have hc' : (s.withMem m).magicCheck = false := hc
  simp only [hdrRule, checkMagic_unchecked hc, checkMagic_unchecked hc', apply_ite (Verdict.mapDone _),
    Verdict.mapDone_load, Verdict.mapDone_raised, ← htable, ← hnat _ (Nat.le_refl _)]
  rfl

/-! ### The checks of HDR (R151, R154, R155) -/

theorem load_of_eq_some {α : Type} {v : Option α} {x : α} (h : v = some x) (k : α → Verdict) :
    load v k = k x := by
  rw [h]
  rfl

theorem load_of_not_isSome {α : Type} {v : Option α} (h : ¬ v.isSome = true) (k : α → Verdict) :
    load v k = .stopped .unwrittenByte := by
  rw [Option.not_isSome_iff_eq_none.1 h]
  rfl

theorem load_of_not_written {s : State} {a n : Nat} (h : ¬ Written s a n) (k : Nat → Verdict) :
    load (s.mem.readNat a n) k = .stopped .unwrittenByte :=
  load_of_not_isSome (mt Memory.readNat_isSome.1 h) k

theorem checkMagic_of_not_written {s : State} (hc : s.magicCheck = true) (h : ¬ Written s s.src 4)
    (v : Verdict) : checkMagic s v = .stopped .unwrittenByte :=
  (if_pos hc).trans (load_of_not_written h _)

/-- The magic check as one condition, where the bytes it reads are written. -/
theorem checkMagic_of_written {s : State} (h : s.magicCheck = true → Written s s.src 4) (v : Verdict) :
    checkMagic s v =
      if s.magicCheck = true ∧ s.mem.readNat s.src 4 ≠ some magicWord then .raised .malformedHeader else v := by
  by_cases hc : s.magicCheck = true
  · obtain ⟨w, hw⟩ := Option.isSome_iff_exists.1 (Memory.readNat_isSome.2 (h hc))
    by_cases hm : w = magicWord <;> simp [checkMagic, load, hc, hw, hm]
  · simp [checkMagic, hc]

theorem countAllowed_iff {f : Fmt} (hf : f ≠ .reserved) (count : Nat) :
    countAllowed f count = true ↔ ¬ (count = 0 ∨ 16 < count) ∧ ¬ (f ≠ .gen ∧ count ≠ 2) := by
  cases f with
  | reserved => exact absurd rfl hf
  | _ => simp [countAllowed]

/-- The count check as the two conditions of R155. -/
theorem tableRule_eq {f : Fmt} (hf : f ≠ .reserved) (s : State) (count : Nat) :
    tableRule f s count =
      if count = 0 ∨ 16 < count then .raised .malformedHeader
      else if f ≠ .gen ∧ count ≠ 2 then .raised .malformedHeader
      else if s.srcLen.toNat < tableBytes count then .raised .malformedHeader
      else load (s.mem.readWords (s.src + 8) count) (sectionsRule f s) := by
  have hbad : (!countAllowed f count) = true ↔ (count = 0 ∨ 16 < count) ∨ (f ≠ .gen ∧ count ≠ 2) := by
    rw [Bool.not_eq_true', ← Bool.not_eq_true, countAllowed_iff hf]
    tauto
  exact (if_congr hbad rfl rfl).trans (ite_or ..)

/-! ### Occupied lengths (R152) -/

@[simp] theorem occupied_length (f : Fmt) (lens : List Nat) : (occupied f lens).length = lens.length := by
  unfold occupied
  split <;> rfl

theorem occupied_getD (f : Fmt) (lens : List Nat) (j : Nat) :
    (occupied f lens).getD j 0 = occupiedLen f lens j := by
  cases f with
  | npf =>
    cases lens with
    | nil => cases j <;> rfl
    | cons l ls => cases j <;> rfl
  | _ => rfl

/-- A partial sum, element by element; past the end of the list there is nothing to add. -/
theorem sum_take_eq_sum_getD (l : List Nat) (n : Nat) :
    (l.take n).sum = ((List.range n).map fun j => l.getD j 0).sum := by
  induction n with
  | zero => simp
  | succ n ih =>
    rw [List.take_add_one, List.sum_append, ih, List.range_succ, List.map_append, List.sum_append]
    cases h : l[n]? <;> simp [h]

theorem sum_take_occupied (f : Fmt) (lens : List Nat) (n : Nat) :
    ((occupied f lens).take n).sum = occupiedBefore f lens n := by
  simp only [sum_take_eq_sum_getD, occupied_getD]
  rfl

theorem sum_occupied (f : Fmt) (lens : List Nat) :
    (occupied f lens).sum = occupiedBefore f lens lens.length := by
  rw [← sum_take_occupied, List.take_of_length_le (occupied_length f lens).le]

theorem occupiedBefore_le (f : Fmt) (lens : List Nat) (n : Nat) :
    occupiedBefore f lens n ≤ occupiedBefore f lens lens.length := by
  rw [← sum_take_occupied, ← sum_occupied]
  exact (List.take_sublist _ _).sum_le_sum (by simp)

/-! ### The section table (R36 to R38, R155) -/

/-- What the registers of the section table read as, where every value fits. -/
theorem State.commitSections_table (s : State) {a : Nat} {lens occ : List Nat} (hcount : lens.length ≤ 16)
    (hlens : ∀ l ∈ lens, l < 2 ^ 32) (haddr : ∀ i < lens.length, a + (occ.take i).sum < 2 ^ 32) :
    let t := s.commitSections a lens occ
    t.secCount.toNat = lens.length ∧
      ∀ i : Fin 16,
        (i.val < lens.length →
          t.secLen[i].toNat = lens.getD i.val 0 ∧ t.secAddr[i].toNat = a + (occ.take i.val).sum) ∧
        (lens.length ≤ i.val → t.secLen[i] = 0 ∧ t.secAddr[i] = 0) := by
  refine ⟨?_, fun i => ⟨fun hi => ⟨?_, ?_⟩, fun hi => ⟨?_, ?_⟩⟩⟩
  · rw [State.commitSections_secCount, BitVec.toNat_ofNat]
    omega
  · simpa [hi] using hlens _ (List.getElem_mem hi)
  · simpa [hi] using haddr i.val hi
  · simp [List.getElem?_eq_none hi]
  · simp [Nat.not_lt_of_le hi]

/-- A length that stands in the table fits its register. -/
theorem lt_of_mem_readWords {m : Memory} {a n : Nat} {lens : List Nat} (h : m.readWords a n = some lens) :
    ∀ l ∈ lens, l < 2 ^ 32 := by
  obtain ⟨rfl, hk⟩ := Memory.readWords_eq_some.1 h
  intro l hl
  obtain ⟨k, hlt, rfl⟩ := List.getElem_of_mem hl
  exact Memory.readNat_lt ((hk k hlt).trans (List.getElem?_eq_getElem hlt))

/-! ### HDR once its table is read (R153, R155) -/

/-- HDR run in `s` completes in `t`, having written the section table of the declared lengths `lens` and the success
status, and nothing else. -/
def PutsSections (f : Fmt) (lens : List Nat) (s t : State) : Prop :=
  exec (.hdr f) s = .next t ∧
    t = succeeded { s with secCount := t.secCount, secLen := t.secLen, secAddr := t.secAddr } ∧
    t.secCount.toNat = lens.length ∧
    ∀ i : Fin 16,
      (i.val < lens.length → t.secLen[i].toNat = lens.getD i.val 0 ∧
        t.secAddr[i].toNat = s.src + tableBytes lens.length + occupiedBefore f lens i.val) ∧
      (lens.length ≤ i.val → t.secLen[i] = 0 ∧ t.secAddr[i] = 0)

/-- Every section starts inside the source buffer, so that each address fits its register. -/
theorem putsSections_of_done {f : Fmt} {s : State} {lens : List Nat} (hm : s.src + s.srcLen.toNat ≤ s.memSize)
    (hcount : lens.length ≤ 16) (hlens : ∀ l ∈ lens, l < 2 ^ 32)
    (hfit : tableBytes lens.length + occupiedBefore f lens lens.length ≤ s.srcLen.toNat)
    (hrule : ruleOf (.hdr f) s = .done (s.commitSections (s.src + tableBytes lens.length) lens (occupied f lens))) :
    ∃ t, PutsSections f lens s t := by
  have haddr : ∀ i < lens.length,
      s.src + tableBytes lens.length + ((occupied f lens).take i).sum < 2 ^ 32 := by
    intro i _
    have hsize := s.memSize_le
    have hbefore := occupiedBefore_le f lens i
    rw [sum_take_occupied]
    omega
  obtain ⟨hsecCount, hsections⟩ := s.commitSections_table hcount hlens haddr
  simp only [sum_take_occupied] at hsections
  exact ⟨_, exec_of_done hrule, rfl, hsecCount, hsections⟩

theorem checked_sectionsRule {f : Fmt} {s : State} {lens : List Nat} (hm : s.src + s.srcLen.toNat ≤ s.memSize)
    (hcount : lens.length ≤ 16) (hlens : ∀ l ∈ lens, l < 2 ^ 32) (htable : tableBytes lens.length ≤ s.srcLen.toNat)
    (hrule : ruleOf (.hdr f) s = sectionsRule f s lens) :
    let total := occupiedBefore f lens lens.length
    let rem := s.srcLen.toNat - tableBytes lens.length
    checked (.hdr f) s [(rem < total, 1), (s.strictLen = true ∧ total < rem, 2)]
      (∃ t, PutsSections f lens s t) := by
  intro total rem
  simp only [sectionsRule, sum_occupied] at hrule
  exact checked_cons .truncatedBuffer hrule Iff.rfl fun hfit hrule =>
    checked_cons .malformedHeader hrule (by simp [total, rem]) fun _ hrule =>
    putsSections_of_done hm hcount hlens (by omega) hrule

/-- A buffer that holds a header with an allowed count, and after it exactly the sections, passes every check. -/
theorem putsSections_of_header {f : Fmt} {s : State} {lens : List Nat} (hf : f ≠ .reserved)
    (hm : s.src + s.srcLen.toNat ≤ s.memSize) (hmagic : s.mem.readNat s.src 4 = some magicWord)
    (hcount : s.mem.readNat (s.src + 4) 4 = some lens.length) (hmax : lens.length ≤ 16)
    (hallowed : countAllowed f lens.length = true)
    (hwords : s.mem.readWords (s.src + 8) lens.length = some lens)
    (hfill : s.srcLen.toNat = tableBytes lens.length + occupiedBefore f lens lens.length) :
    ∃ t, PutsSections f lens s t := by
  have hL : 8 ≤ s.srcLen.toNat := by rw [hfill, tableBytes]; omega
  have hsum : (occupied f lens).sum = s.srcLen.toNat - tableBytes lens.length := by rw [sum_occupied]; omega
  have hdone := hdrRule_done.2 ⟨(s.inMem_iff _ _).2 (.inr hm), hL, fun _ => hmagic, lens, hcount, hallowed,
    by omega, hwords, hsum.le, fun _ => hsum, rfl⟩
  exact putsSections_of_done hm hmax (lt_of_mem_readWords hwords) hfill.ge
    ((ruleOf_hdr (Fmt.legal_of_ne_reserved hf) s).trans hdone)

/-! ### A header reads back as it was written (R56) -/

theorem Memory.readNat_writeBytes_append (m : Memory) (a : Nat) (xs ys zs : List Byte) :
    (m.writeBytes a (xs ++ ys ++ zs)).readNat (a + xs.length) ys.length = some (leNat ys) := by
  rw [Memory.readNat, Memory.readBytes_writeBytes (by simp)]
  simp

theorem Memory.readNat_writeBytes_u32 (m : Memory) (a : Nat) (xs zs : List Byte) {v : Nat} (h : v < 2 ^ 32) :
    (m.writeBytes a (xs ++ leBytes 4 v ++ zs)).readNat (a + xs.length) 4 = some v := by
  have hread := m.readNat_writeBytes_append a xs (leBytes 4 v) zs
  rwa [leBytes_length, leNat_leBytes, Nat.mod_eq_of_lt (show v < 256 ^ 4 from h)] at hread

theorem Memory.readWords_writeBytes (m : Memory) (a : Nat) (xs : List Byte) {lens : List Nat}
    (h : ∀ l ∈ lens, l < 2 ^ 32) :
    (m.writeBytes a (xs ++ lens.flatMap (leBytes 4))).readWords (a + xs.length) lens.length = some lens := by
  induction lens generalizing xs with
  | nil => rfl
  | cons l ls ih =>
    obtain ⟨hl, hls⟩ := List.forall_mem_cons.1 h
    have hrest := ih (xs ++ leBytes 4 l) hls
    rw [List.length_append, leBytes_length, ← Nat.add_assoc] at hrest
    rw [List.flatMap_cons, ← List.append_assoc, List.length_cons, Memory.readWords,
      m.readNat_writeBytes_u32 a xs _ hl]
    simp only [hrest, Option.map_some]

/-- What HDR reads of a header: the magic, the count and the lengths. -/
theorem read_headerBytes (m : Memory) (a : Nat) {lens : List Nat} (hcount : lens.length < 2 ^ 32)
    (hlens : ∀ l ∈ lens, l < 2 ^ 32) :
    let m' := m.writeBytes a (headerBytes lens)
    m'.readNat a 4 = some magicWord ∧ m'.readNat (a + 4) 4 = some lens.length ∧
      m'.readWords (a + 8) lens.length = some lens := by
  refine ⟨?_, m.readNat_writeBytes_u32 a [0x55, 0x47, 0x41, 0x52] _ hcount, ?_⟩
  · rw [headerBytes, List.append_assoc]
    exact m.readNat_writeBytes_append a [] [0x55, 0x47, 0x41, 0x52] _
  · exact m.readWords_writeBytes a ([0x55, 0x47, 0x41, 0x52] ++ leBytes 4 lens.length) hlens

end Sys2Proof.Machine

namespace Sys2Proof

open Machine Spec

/-- Settles O22: with MAGIC_CHECK = 0 every byte that HDR reads stands past the magic. -/
theorem uncheckedMagicIsNotRead : Obligations.UncheckedMagicIsNotRead := by
  unfold Obligations.UncheckedMagicIsNotRead
  intro f s m hc hm
  change exec (.hdr f) (s.withMem m) = mapNext (·.withMem m) (exec (.hdr f) s)
  have hrule : ruleOf (.hdr f) (s.withMem m) = (ruleOf (.hdr f) s).mapDone (·.withMem m) := by
    simp only [ruleOf, apply_ite (Verdict.mapDone _), Verdict.mapDone_raised]
    rw [hdrRule_withMem f hc fun x hx => hm x fun h => Nat.not_lt_of_le hx h.2]
  rw [exec_eq_finish, exec_eq_finish, hrule]
  exact finish_mapDone (g := (·.withMem m)) (fun _ => rfl) (fun _ _ => rfl) s _

/-- Settles O39: each stage of `Machine.hdrRule` is a check of R155 or a read, in its order. -/
theorem hdrRule : Obligations.HdrRule := by
  unfold Obligations.HdrRule
  refine ⟨by decide, by decide, by decide, ⟨.unsupportedFormat, by decide, rfl⟩, ?_⟩
  intro f s hf base L
  refine checked_cons .addressRange (ruleOf_hdr (Fmt.legal_of_ne_reserved hf) s) (not_inMem_iff ..) fun hin hrule =>
    checked_cons .malformedHeader hrule Iff.rfl fun hL hrule =>
    ⟨fun hc hw => exec_of_stopped (hrule.trans (checkMagic_of_not_written hc hw _)), fun hw => ?_⟩
  refine checked_cons .malformedHeader (hrule.trans (checkMagic_of_written hw _)) Iff.rfl fun _ hrule =>
    ⟨fun hw => exec_of_stopped (hrule.trans (load_of_not_written hw _)), fun count hcount => ?_⟩
  have hcounted := hrule.trans ((load_of_eq_some hcount _).trans (tableRule_eq hf s count))
  refine checked_cons .malformedHeader hcounted Iff.rfl fun hrange hrule =>
    checked_cons .malformedHeader hrule Iff.rfl fun _ hrule =>
    checked_cons .malformedHeader hrule Iff.rfl fun htable hrule => ⟨fun hw => ?_, fun lens hlen hlens => ?_⟩
  · exact exec_of_stopped (hrule.trans (load_of_not_isSome (mt readWords_isSome_iff_written.1 hw) _))
  · have hwords := Memory.readWords_eq_some.2 ⟨hlen, hlens⟩
    have hm : s.src + s.srcLen.toNat ≤ s.memSize := (not_not.1 hin).resolve_left (by omega)
    subst hlen
    exact checked_sectionsRule hm (by omega) (lt_of_mem_readWords hwords) (Nat.le_of_not_lt htable)
      (hrule.trans (load_of_eq_some hwords _))

/-- Settles O40: HDR reads what was written (`read_headerBytes`), and the sections fill the rest of the buffer. -/
theorem headerRoundTrip : Obligations.HeaderRoundTrip := by
  unfold Obligations.HeaderRoundTrip
  intro f lens s hf hpos hmax hpair hlens hlen hm
  obtain ⟨hmagic, hcount, hwords⟩ := read_headerBytes s.mem s.src (Nat.lt_of_le_of_lt hmax (by decide)) hlens
  have hallowed := (countAllowed_iff hf lens.length).2 ⟨by omega, fun h => h.2 (hpair h.1)⟩
  obtain ⟨t, hexec, hframe, hsecCount, hsections⟩ :=
    putsSections_of_header (s := s.withMem (s.mem.writeBytes s.src (headerBytes lens))) hf hm hmagic hcount hmax
      hallowed hwords hlen
  refine ⟨t, hexec, congrArg State.err hframe, hsecCount, fun i hi => ?_⟩
  obtain ⟨hinside, -⟩ := hsections i
  exact (hinside hi).1

end Sys2Proof
end

section
/-! The indexed palette commands (43_indexed_palette.md): what PAL8 and PAL4 share once no check fails, the pixel of an
index, and the alpha byte of what they write. -/

namespace Sys2Proof.Machine

open Spec

/-! ### The palette (R170, R171) -/

theorem Memory.packedAt_isSome {m : Memory} {a : Nat} :
    (m.packedAt a).isSome = true ↔ (m.readNat a 2).isSome = true := by
  rw [Memory.packedAt, Option.isSome_map]

theorem Memory.readPalette_isSome {m : Memory} {a n : Nat} :
    (m.readPalette a n).isSome = true ↔ ∀ k < n, (m.packedAt (a + 2 * k)).isSome = true := by
  induction n generalizing a with
  | zero => simp [Memory.readPalette]
  | succ n ih =>
    rw [Memory.readPalette, Nat.forall_lt_succ_left]
    cases hw : m.packedAt a with
    | none => simp
    | some w => simp [ih, Nat.mul_add, Nat.add_assoc, Nat.add_comm 2]

/-- The palette is read exactly when all its bytes are written (R68). -/
theorem readPalette_isSome_iff_written {s : State} {a n : Nat} :
    (s.mem.readPalette a n).isSome = true ↔ Written s a (2 * n) := by
  rw [Memory.readPalette_isSome, written_mul_iff]
  exact forall₂_congr fun _ _ => Memory.packedAt_isSome.trans Memory.readNat_isSome

/-- Entry `k` of a palette is its word `k`, unpacked without alpha. -/
theorem Memory.readPalette_getD {m : Memory} {a n k : Nat} {pal : List Word} (h : m.readPalette a n = some pal)
    (hk : k < n) (d : Word) :
    ∃ w, m.readNat (a + 2 * k) 2 = some w ∧ pal.getD k d = unpack (BitVec.ofNat 16 w) false := by
  obtain ⟨hlen, hentry⟩ := Memory.readPalette_eq_some.1 h
  have hkth := hentry k hk
  rw [List.getElem?_eq_getElem (hlen.symm ▸ hk), Memory.packedAt, Option.map_map, Option.map_eq_some_iff] at hkth
  obtain ⟨w, hw, hunpack⟩ := hkth
  exact ⟨w, hw, (List.getD_eq_getElem _ _ _).trans hunpack.symm⟩

/-! ### The pixel of an NPF index (R171 to R173) -/

theorem nibble_eq (p : Nat) (b : Byte) :
    nibble p b = if p % 2 = 0 then b.toNat % 16 else b.toNat / 16 := by
  have hb := b.isLt
  rw [nibble, toNat_extractLsb'_eq_div_mod, toNat_extractLsb'_eq_div_mod]
  split_ifs <;> omega

theorem npfPixel_zero (pal : List Word) : npfPixel pal 0 = 0x00000000 := rfl

theorem npfPixel_of_pos {idx : Nat} (h : 1 ≤ idx) (pal : List Word) :
    npfPixel pal idx = pal.getD (idx - 1) 0xFF000000 := if_neg (by omega)

theorem npfPixel_of_length_lt {pal : List Word} {idx : Nat} (h : pal.length < idx) :
    npfPixel pal idx = 0xFF000000 := by
  rw [npfPixel_of_pos (by omega), List.getD_eq_default _ _ (by omega)]

/-! ### PAL8 and PAL4 once no check fails (R174, R175) -/

/-- The bytes of output pixel `p`: the pixel `px p b` of the byte `b` that holds its index, at `pos p`. -/
def indexedElem (s : State) (pos : Nat → Nat) (px : Nat → Byte → Word) (p : Nat) : Option (List Byte) :=
  (s.mem.read (pos p)).map fun b => pixelBytes (px p b)

/-- The end of PAL8 and PAL4: read `words` palette words, then write each pixel under that palette. -/
def indexedCopy (s : State) (words : Nat) (pos : Nat → Nat) (px : List Word → Nat → Byte → Word) : Verdict :=
  load (s.mem.readPalette s.aux words) fun pal =>
    load (gather (N s) (indexedElem s pos (px pal))) fun bytes => .done (s.commitOutput (4 * N s) bytes)

theorem gather_indexedElem_isSome {s : State} {pos : Nat → Nat} {px : Nat → Byte → Word} {n : Nat} :
    (gather n (indexedElem s pos px)).isSome = true ↔ ∀ p < n, (s.mem.read (pos p)).isSome = true := by
  simp only [gather_isSome, indexedElem, Option.isSome_map]

theorem commitOutput_indexedElem {s : State} {pos : Nat → Nat} {px : Nat → Byte → Word} {n p : Nat}
    {bytes : List Byte} (h : gather n (indexedElem s pos px) = some bytes) (hp : p < n) (out : Nat) :
    ∃ b, s.mem.read (pos p) = some b ∧
      (s.commitOutput out bytes).mem.readNat (s.dst + 4 * p) 4 = some (px p b).toNat := by
  have hlen : ∀ p < n, ∀ x, indexedElem s pos px p = some x → x.length = 4 := fun _ _ _ => length_of_map_pixelBytes
  obtain ⟨b, hb, -⟩ := Option.map_eq_some_iff.1 (gather_slice h hlen hp)
  refine ⟨b, hb, ?_⟩
  rw [Memory.readNat, commitOutput_readBytes h hlen hp, indexedElem, hb, Option.map_some, Option.map_some,
    leNat_pixelBytes]

/-- How PAL8 and PAL4 end, `len` being the bytes that hold their indices: a fault where a byte of the palette or of
the indices is unwritten, and otherwise the output, its frame, and each pixel under the palette that was read. -/
theorem indexedCopy_ends {i : Instr} {s : State} {words len : Nat} {pos : Nat → Nat}
    {px : List Word → Nat → Byte → Word} (hm : InMem s s.dst (4 * N s))
    (hlen : (∀ p < N s, (s.mem.read (pos p)).isSome = true) ↔ Written s s.src len)
    (hrule : ruleOf i s = indexedCopy s words pos px) :
    (¬ (Written s s.aux (2 * words) ∧ Written s s.src len) → Faults i s) ∧
      (Written s s.aux (2 * words) ∧ Written s s.src len → ∃ t, Outputs i s t (4 * N s) ∧
        ∃ pal, s.mem.readPalette s.aux words = some pal ∧ ∀ p < N s, ∃ b, s.mem.read (pos p) = some b ∧
          t.mem.readNat (s.dst + 4 * p) 4 = some (px pal p b).toNat) := by
  by_cases haux : Written s s.aux (2 * words)
  case neg =>
    have hstop := hrule.trans (load_of_not_isSome (mt readPalette_isSome_iff_written.1 haux) _)
    exact ⟨fun _ => exec_of_stopped hstop, fun hw => absurd hw.1 haux⟩
  obtain ⟨pal, hpal⟩ := Option.isSome_iff_exists.1 (readPalette_isSome_iff_written.2 haux)
  rw [indexedCopy, load_of_eq_some hpal] at hrule
  rw [← hlen, ← gather_indexedElem_isSome (px := px pal)]
  refine ⟨fun hw => exec_of_stopped ?_, fun ⟨_, hsrc⟩ => ?_⟩
  · exact hrule.trans (load_of_not_isSome (fun hsrc => hw ⟨haux, hsrc⟩) _)
  · obtain ⟨bytes, hg⟩ := Option.isSome_iff_exists.1 hsrc
    have hl := gather_length hg fun _ _ _ => length_of_map_pixelBytes
    exact ⟨_, outputs_of_done (hrule.trans (load_of_eq_some hg _)) hl hm, pal, hpal,
      fun p hp => commitOutput_indexedElem hg hp (4 * N s)⟩

theorem not_disjoint_and_iff (a n b m c k : Nat) :
    (!(disjoint a n b m && disjoint a n c k)) = true ↔ ¬ Apart a n b m ∨ ¬ Apart a n c k := by
  rw [Bool.not_and, Bool.or_eq_true, not_disjoint_iff, not_disjoint_iff]

/-- What is left to show of PAL8: its end once no check fails. -/
theorem checked_pal8Checks {s : State} {rest : Prop}
    (hrest : InMem s s.dst (4 * N s) →
      ruleOf .pal8 s = indexedCopy s 256 (s.src + ·) (fun pal _ ix => pal.getD ix.toNat 0) → rest) :
    checked .pal8 s (pal8Checks s) rest :=
  checked_cons .invalidDimensions (Eq.refl (pal8Rule s)) Iff.rfl fun _ h =>
  checked_cons .addressRange h (not_inMem_iff ..) fun _ h =>
  checked_cons .malformedHeader h Iff.rfl fun _ h =>
  checked_cons .truncatedBuffer h Iff.rfl fun _ h =>
  checked_cons .addressRange h (not_inMem_iff ..) fun _ h =>
  checked_cons .addressRange h (not_inMem_iff ..) fun hdst h =>
  checked_cons .overlap h (not_disjoint_and_iff ..) fun _ h => hrest (not_not.1 hdst) h

/-- What is left to show of PAL4: its end once no check fails. -/
theorem checked_pal4Checks {s : State} {rest : Prop}
    (hrest : InMem s s.dst (4 * N s) →
      ruleOf .pal4 s = indexedCopy s (min 15 (pow2ceil s.auxLen.toNat / 2)) (fun p => s.src + p / 2)
        (fun pal p b => npfPixel pal (nibble p b)) → rest) :
    checked .pal4 s (pal4Checks s ((N s + 1) / 2) (pow2ceil s.auxLen.toNat)) rest :=
  checked_cons .invalidDimensions (Eq.refl (pal4Rule s)) Iff.rfl fun _ h =>
  checked_cons .addressRange h (not_inMem_iff ..) fun _ h =>
  checked_cons .truncatedBuffer h Iff.rfl fun _ h =>
  checked_cons .addressRange h (not_inMem_iff ..) fun _ h =>
  checked_cons .addressRange h (not_inMem_iff ..) fun hdst h =>
  checked_cons .overlap h (not_disjoint_and_iff ..) fun _ h => hrest (not_not.1 hdst) h

/-- The bytes of `n` nibbles, two to a byte, are those some element takes its index from (R172). -/
theorem forall_half_iff_written {s : State} {a n : Nat} :
    (∀ p < n, (s.mem.read (a + p / 2)).isSome = true) ↔ Written s a ((n + 1) / 2) := by
  constructor
  · intro h k hk
    have hlow := h (2 * k) (by omega)
    rwa [Nat.mul_div_cancel_left k (by decide)] at hlow
  · exact fun h p hp => h (p / 2) (by omega)

/-! ### What a buffer command that succeeded has written -/

theorem output_of_succeeds {i : Instr} {s t : State} {checks : List (Prop × BitVec 4)} {read : Prop} {out : Nat}
    {P : State → Prop}
    (h : checked i s checks ((¬ read → Faults i s) ∧ (read → ∃ t, Outputs i s t out ∧ P t)))
    (ht : exec i s = .next t) (he : t.err = false) : P t := by
  obtain ⟨hfault, hdone⟩ := rest_of_checked h (checks_of_succeeds h ht he)
  have hread : read := by
    by_contra hr
    cases ht.symm.trans (hfault hr)
  obtain ⟨t', ⟨hexec, -⟩, hP⟩ := hdone hread
  cases ht.symm.trans hexec
  exact hP

/-! ### The alpha byte (R53, R176) -/

/-- Byte `k` of what a range reads as. -/
theorem Memory.read_of_readNat {m : Memory} {a n v k : Nat} (h : m.readNat a n = some v) (hk : k < n) :
    m.read (a + k) = some (BitVec.ofNat 8 (v / 256 ^ k)) := by
  obtain ⟨bs, hbs, rfl⟩ := Memory.readNat_eq_some.1 h
  obtain ⟨rfl, hread⟩ := Memory.readBytes_eq_some.1 hbs
  rw [hread k hk, ← leBytes_getElem? hk, leBytes_leNat]

theorem Memory.read_alpha {m : Memory} {a : Nat} {p : Word} (h : m.readNat a 4 = some p.toNat) :
    m.read (a + 3) = some (p.extractLsb' 24 8) := by
  rw [Memory.read_of_readNat h (by decide), ofNat_div_pow_eq_extractLsb']

/-- A palette word gives an opaque pixel, whatever it is. -/
theorem Memory.read_alpha_of_unpack {m : Memory} {a : Nat} {w : Packed}
    (h : m.readNat a 4 = some (unpack w false).toNat) : m.read (a + 3) = some 0xFF := by
  rw [Memory.read_alpha h, unpack_alpha]
  rfl

end Sys2Proof.Machine

namespace Sys2Proof

open Machine Spec

/-- Settles O41: an index byte is below 256, so each names a palette word that was read. -/
theorem pal8Rule : Obligations.Pal8Rule := by
  unfold Obligations.Pal8Rule
  refine ⟨by decide, fun s => checked_pal8Checks fun hm hrule => ?_⟩
  obtain ⟨hfault, hdone⟩ := indexedCopy_ends hm Iff.rfl hrule
  refine ⟨hfault, fun hw => ?_⟩
  obtain ⟨t, hout, pal, hpal, hpx⟩ := hdone hw
  refine ⟨t, hout, fun p hp => ?_⟩
  obtain ⟨ix, hix, hpixel⟩ := hpx p hp
  obtain ⟨w, hword, hentry⟩ := Memory.readPalette_getD hpal ix.isLt 0
  exact ⟨ix, w, hix, hword, hentry ▸ hpixel⟩

/-- Settles O42: the three clauses are the three cases of `npfPixel`. -/
theorem pal4Rule : Obligations.Pal4Rule := by
  unfold Obligations.Pal4Rule
  refine ⟨by decide, fun s => checked_pal4Checks fun hm hrule => ?_⟩
  obtain ⟨hfault, hdone⟩ := indexedCopy_ends hm forall_half_iff_written hrule
  refine ⟨hfault, fun hw => ?_⟩
  obtain ⟨t, hout, pal, hpal, hpx⟩ := hdone hw
  refine ⟨t, hout, fun p hp => ?_⟩
  obtain ⟨b, hb, hpixel⟩ := hpx p hp
  rw [nibble_eq] at hpixel
  refine ⟨b, hb, fun hzero => ?_, fun hpos hle => ?_, fun hgt => ?_⟩
  · rwa [hzero, npfPixel_zero] at hpixel
  · obtain ⟨w, hword, hentry⟩ := Memory.readPalette_getD hpal (Nat.sub_one_lt_of_le hpos hle) 0xFF000000
    rw [npfPixel_of_pos hpos, hentry] at hpixel
    exact ⟨w, hword, hpixel⟩
  · have hlen := (Memory.readPalette_eq_some.1 hpal).1
    rwa [npfPixel_of_length_lt (hlen.symm ▸ hgt)] at hpixel

/-- Settles O43: a pixel of PAL8 or PAL4 that is not the transparent one is a word unpacked without alpha, or opaque
black. -/
theorem paletteAlpha : Obligations.PaletteAlpha := by
  unfold Obligations.PaletteAlpha
  obtain ⟨-, hpal8⟩ := pal8Rule
  obtain ⟨-, hpal4⟩ := pal4Rule
  refine ⟨fun s t ht he p hp => ?_, fun s t ht he p hp => ?_⟩
  · obtain ⟨ix, w, -, -, hpixel⟩ := output_of_succeeds (hpal8 s) ht he p hp
    exact Memory.read_alpha_of_unpack hpixel
  · obtain ⟨b, hb, hzero, hword, hblack⟩ := output_of_succeeds (hpal4 s) ht he p hp
    simp only [← nibble_eq] at hzero hword hblack ⊢
    refine ⟨b, hb, ?_⟩
    split_ifs with hidx
    · exact hzero hidx
    · obtain hle | hgt := le_or_gt (nibble p b) (min 15 (pow2ceil s.auxLen.toNat / 2))
      · obtain ⟨w, -, hpixel⟩ := hword (Nat.pos_of_ne_zero hidx) hle
        exact Memory.read_alpha_of_unpack hpixel
      · exact Memory.read_alpha (p := 0xFF000000) (hblack hgt)

end Sys2Proof
end

section
/-! Command control (44_control.md): the host issues a command and polls STATUS, the block runs the command, and a
success reports itself; NOP. -/

namespace Sys2Proof.Machine

/-! ### Issue (R191) -/

/-- R26: STATUS of a pending command with nothing reported. -/
theorem State.statusWord_pending {s : State} (hp : s.phase = .pending) (hd : s.done = false)
    (he : s.err = false) (hc : s.errCode = 0) : s.statusWord = 0x00000001 := by
  rw [State.statusWord, State.busy, hp, hd, he, hc]
  decide

@[simp] theorem State.issue_statusWord (s : State) (w : Word) : (s.issue w).statusWord = 0x00000001 :=
  State.statusWord_pending (s.issue_phase w) (s.issue_done w) (s.issue_err w) (s.issue_errCode w)

/-- A host write to CMD of an idle block is the issue step. -/
theorem step_writeCmd {s : State} (h : s.phase = .idle) (rest : List Turn) (w : Word) :
    step { s with agenda := .host (.writeReg 0x008 4 w) :: rest }
      = .next (State.issue { s with agenda := rest } w) := by
  rw [step_writeReg_idle h rest w (by decide) (by decide)]
  rfl

/-! ### Polling (R81, R238) -/

/-- The access of one poll: a host read of STATUS. -/
def statusRead : HostAccess := .readReg statusOffset 4

/-- R20, R234: STATUS is the one register that reads in every phase. -/
theorem step_statusRead (s : State) (rest : List Turn) :
    step { s with agenda := .host statusRead :: rest }
      = .next { s with agenda := rest, reply := some s.statusWord } := by
  rw [step_host, statusRead, hostAccess, hostReadReg, if_neg (by decide), if_neg (by simp), if_neg (by decide)]
  rfl

/-- The last of `n` polls is what the host has read; the state is otherwise as before them. -/
theorem run_statusReads (s : State) (n : Nat) (rest : List Turn) :
    core.run n { s with agenda := List.replicate n (.host statusRead) ++ rest }
      = .next { s with agenda := rest, reply := if n = 0 then s.reply else some s.statusWord } := by
  induction n generalizing s with
  | zero => rfl
  | succ n ih =>
    calc core.run (n + 1) { s with agenda := List.replicate (n + 1) (.host statusRead) ++ rest }
      _ = core.run n { s with
            agenda := List.replicate n (.host statusRead) ++ rest
            reply := some s.statusWord } := core_run_next n (step_statusRead s _)
      _ = .next { s with
            agenda := rest
            reply := if n = 0 then some s.statusWord else some s.statusWord } :=
        ih { s with reply := some s.statusWord }
      _ = .next { s with
            agenda := rest
            reply := if n + 1 = 0 then s.reply else some s.statusWord } := by
        rw [ite_self, if_neg (Nat.succ_ne_zero n)]

/-! ### Execute, and success (R191, R194) -/

theorem executeCommand_command {s : State} {i : Instr} (h : decode s.cmd = .command i) :
    executeCommand s = exec i s := by
  rw [executeCommand, h]

@[simp] theorem State.succeed_statusWord (s : State) : s.succeed.statusWord = 0x00000002 := by
  rw [State.statusWord, State.busy, s.succeed_phase, s.succeed_done, s.succeed_err, s.succeed_errCode]
  decide

/-- A command that answers with ERR = 0 ends in the success status, as a raise sets ERR. -/
theorem exec_success {i : Instr} {s t : State} (h : exec i s = .next t) (he : t.err = false) :
    ∃ u, Commits s u ∧ t = u.succeed := by
  obtain ⟨e, rfl⟩ | hu := exec_next h
  · rw [State.fail_err] at he
    cases he
  · exact hu

end Sys2Proof.Machine

namespace Sys2Proof

open Machine

/-- R75: with OP = 0 the decoder looks at RSV and then at the two fields NOP does not use. -/
theorem decode_of_opField_zero {w : Word} (hop : opField w = 0) (hw : w ≠ 0) :
    decode w = .rejected .reservedBits ∨ decode w = .rejected .unusedField := by
  by_cases hr : rsvField w = 0
  · have hfields : esizeField w ≠ 0 ∨ fmtField w ≠ 0 := by
      refine not_and_or.1 fun hzero => hw ?_
      obtain ⟨hs, hf⟩ := hzero
      rw [← commandWord_of_fields hr hs hf, hop]
      decide
    rw [decode_of_rsvField hr, decodeOp, hop]
    exact .inr (decodePlain_unusedField .nop hfields)
  · exact .inl (decode_reservedBits hr)

/-- Settles O10: `run_statusReads`, by induction on the polls, with the STATUS word of a pending command. -/
theorem pollingKeepsCommandPending : Obligations.PollingKeepsCommandPending := by
  unfold Obligations.PollingKeepsCommandPending
  intro s n rest hp hd he hc
  rw [← State.statusWord_pending hp hd he hc]
  exact run_statusReads s n (.block :: rest)

/-- Settles O14: `exec_success` leaves the commits, and each of them ends in the success status. -/
theorem successStatus : Obligations.SuccessStatus := by
  unfold Obligations.SuccessStatus
  intro i s t h he
  obtain ⟨u, -, rfl⟩ := exec_success h he
  exact ⟨u.succeed_phase, u.succeed_done, u.succeed_errCode, u.succeed_statusWord⟩

/-- Settles O5: the block's turn is `executeCommand`, which runs what CMD decodes to. -/
theorem stepRunsDecodedCommand : Obligations.StepRunsDecodedCommand := by
  unfold Obligations.StepRunsDecodedCommand
  intro s i hp hn hd
  rw [step_pending hp hn, executeCommand_command (s := s.takeTurn) hd]

/-- Settles O9: the write is the issue step (`step_writeCmd`). -/
theorem cmdWriteIssuesCommand : Obligations.CmdWriteIssuesCommand := by
  unfold Obligations.CmdWriteIssuesCommand
  intro s w rest h
  exact ⟨_, step_writeCmd h rest w, rfl, State.issue_statusWord _ w⟩

/-- Settles O31: NOP commits the state as it is, and both rejections of `decode_of_opField_zero` are illegal
commands. -/
theorem nopRule : Obligations.NopRule := by
  unfold Obligations.NopRule
  refine ⟨by decide, fun s => exec_of_done rfl, fun w hop hw => ?_⟩
  obtain hr | hr := decode_of_opField_zero hop hw
  · exact ⟨.reservedBits, hr, rfl⟩
  · exact ⟨.unusedField, hr, rfl⟩

end Sys2Proof
end

section
/-! STATUS, errors and stops (60_exceptions.md): what a command leaves in STATUS, what a raise changes, where a command
can stop, and the turn of an idle block. -/

namespace Sys2Proof.Machine

open Spec

/-! ### STATUS after a raise (R201, R203) -/

/-- A raise leaves its code in ERRCODE, ERR and DONE set, and BUSY clear (R26). -/
theorem State.fail_statusWord (s : State) (e : ErrorCode) :
    (s.fail e).statusWord = 0#20 ++ e.code ++ 0x06#8 := by
  rw [State.statusWord, State.busy, s.fail_phase, s.fail_done, s.fail_err, s.fail_errCode]
  cases e <;> decide

/-- Code 0 is no error's (R201). -/
theorem ErrorCode.code_ne_zero (e : ErrorCode) : e.code ≠ 0 := by cases e <;> decide

/-- A command that answers with ERR = 1 has raised, as a success clears ERR. -/
theorem exec_failure {i : Instr} {s t : State} (h : exec i s = .next t) (he : t.err = true) :
    ∃ e, t = s.fail e := by
  obtain hraise | ⟨u, -, rfl⟩ := exec_next h
  · exact hraise
  · rw [State.succeed_err] at he
    cases he

/-! ### The turn of an idle block (R213) -/

theorem step_idle {s : State} (hp : s.phase = .idle) (hn : s.nextTurn = .block) : step s = .next s.takeTurn := by
  rw [step, hn, runTurn, blockTurn, State.takeTurn_phase, hp]

/-! ### Where a rule can stop (R68, R214) -/

/-- The rule's verdict `v` in `s` is a stop only where a byte of `MEM` is unwritten, and then for that reason. -/
def Verdict.StopsOnUnwritten (s : State) (v : Verdict) : Prop :=
  ∀ r, v = .stopped r → r = .unwrittenByte ∧ ∃ a < s.memSize, s.mem.read a = none

/-- A range inside `MEM` that is not all written holds an unwritten byte of `MEM`. -/
theorem exists_unwritten {s : State} {a n : Nat} (hm : InMem s a n) (hw : ¬ Written s a n) :
    ∃ x < s.memSize, s.mem.read x = none := by
  simp only [Written, not_forall, Option.not_isSome_iff_eq_none] at hw
  obtain ⟨k, hk, hnone⟩ := hw
  have hm' : n = 0 ∨ a + n ≤ s.memSize := hm
  exact ⟨a + k, by omega, hnone⟩

theorem inMem_mono {s : State} {a n m : Nat} (h : InMem s a n) (hmn : m ≤ n) : InMem s a m := by
  unfold InMem at *
  omega

/-- The range check of a rule has passed (R9). -/
theorem inMem_of_check {s : State} {a n : Nat} (h : ¬ (!s.inMem a n) = true) : InMem s a n :=
  not_not.1 (mt (not_inMem_iff s a n).2 h)

theorem stopsOnUnwritten_done {s u : State} : (Verdict.done u).StopsOnUnwritten s := fun _ => Verdict.noConfusion

theorem stopsOnUnwritten_raised {s : State} {e : ErrorCode} : (Verdict.raised e).StopsOnUnwritten s :=
  fun _ => Verdict.noConfusion

/-- A check does not stop, so what follows it may suppose that it has passed. -/
theorem stopsOnUnwritten_guard {s : State} {c : Prop} [Decidable c] {e : ErrorCode} {v : Verdict}
    (hv : ¬ c → v.StopsOnUnwritten s) : (if c then .raised e else v).StopsOnUnwritten s := by
  split_ifs with h
  · exact stopsOnUnwritten_raised
  · exact hv h

/-- The check of a reserved ESIZE or FMT, and of the magic: what it guards stands first. -/
theorem stopsOnUnwritten_guardElse {s : State} {c : Prop} [Decidable c] {e : ErrorCode} {v : Verdict}
    (hv : v.StopsOnUnwritten s) : (if c then v else .raised e).StopsOnUnwritten s := by
  split_ifs
  · exact hv
  · exact stopsOnUnwritten_raised

/-- A read inside `MEM` that completes when its range is written. -/
theorem stopsOnUnwritten_load {s : State} {a n : Nat} {α : Type} {v : Option α} {k : α → Verdict}
    (hm : InMem s a n) (hv : Written s a n → v.isSome = true)
    (hk : ∀ x, v = some x → (k x).StopsOnUnwritten s) : (load v k).StopsOnUnwritten s := by
  intro r hr
  obtain ⟨hnone, rfl⟩ | ⟨x, hx, hstop⟩ := load_eq_stopped.1 hr
  · exact ⟨rfl, exists_unwritten hm (mt hv (Option.not_isSome_iff_eq_none.2 hnone))⟩
  · exact hk x hx r hstop

/-- CONV, PAD and CROP read inside the source buffer they have checked. -/
theorem copyRule_stopsOnUnwritten {s : State} {need n out : Nat} {elem : Nat → Option (List Byte)}
    (hread : Written s s.src need → (gather n elem).isSome = true) :
    (copyRule s need n out elem).StopsOnUnwritten s :=
  stopsOnUnwritten_guard fun _ =>
  stopsOnUnwritten_guard fun hsrc =>
  stopsOnUnwritten_guard fun hneed =>
  stopsOnUnwritten_guard fun _ =>
  stopsOnUnwritten_guard fun _ =>
  have hin : InMem s s.src s.srcLen.toNat := inMem_of_check hsrc
  stopsOnUnwritten_load (inMem_mono hin (Nat.le_of_not_lt hneed)) hread fun _ _ => stopsOnUnwritten_done

theorem convRule_stopsOnUnwritten (a : Bool) (s : State) : (convRule a s).StopsOnUnwritten s :=
  copyRule_stopsOnUnwritten gather_convElem_isSome.2

theorem padRule_stopsOnUnwritten (e : Nat) (s : State) : (padRule e s).StopsOnUnwritten s :=
  copyRule_stopsOnUnwritten fun hw => gather_gridElem_isSome.2 (written_source_iff_padElems.1 hw)

theorem cropRule_stopsOnUnwritten (e : Nat) (s : State) : (cropRule e s).StopsOnUnwritten s :=
  copyRule_stopsOnUnwritten fun hw => gather_gridElem_isSome.2 fun y hy c hc =>
    written_iff_grid.1 hw y hy c (Nat.lt_of_lt_of_le hc (le_pow2ceil s.w))

/-- The end of PAL8 and PAL4, `len` being the bytes that hold their indices. -/
theorem indexedCopy_stopsOnUnwritten {s : State} {words len : Nat} {pos : Nat → Nat}
    {px : List Word → Nat → Byte → Word} (haux : InMem s s.aux (2 * words)) (hsrc : InMem s s.src len)
    (hlen : Written s s.src len → ∀ p < N s, (s.mem.read (pos p)).isSome = true) :
    (indexedCopy s words pos px).StopsOnUnwritten s :=
  stopsOnUnwritten_load haux readPalette_isSome_iff_written.2 fun _ _ =>
  stopsOnUnwritten_load hsrc (fun hw => gather_indexedElem_isSome.2 (hlen hw)) fun _ _ => stopsOnUnwritten_done

theorem pal8Rule_stopsOnUnwritten (s : State) : (pal8Rule s).StopsOnUnwritten s :=
  stopsOnUnwritten_guard fun _ =>
  stopsOnUnwritten_guard fun hsrc =>
  stopsOnUnwritten_guard fun _ =>
  stopsOnUnwritten_guard fun hneed =>
  stopsOnUnwritten_guard fun haux =>
  stopsOnUnwritten_guard fun _ =>
  stopsOnUnwritten_guard fun _ =>
  have hin : InMem s s.src s.srcLen.toNat := inMem_of_check hsrc
  have hpal : InMem s s.aux nbfPaletteBytes := inMem_of_check haux
  indexedCopy_stopsOnUnwritten (words := 256) hpal (inMem_mono hin (Nat.le_of_not_lt hneed)) id

theorem pal4Rule_stopsOnUnwritten (s : State) : (pal4Rule s).StopsOnUnwritten s :=
  stopsOnUnwritten_guard fun _ =>
  stopsOnUnwritten_guard fun hsrc =>
  stopsOnUnwritten_guard fun hneed =>
  stopsOnUnwritten_guard fun haux =>
  stopsOnUnwritten_guard fun _ =>
  stopsOnUnwritten_guard fun _ =>
  have hin : InMem s s.src s.srcLen.toNat := inMem_of_check hsrc
  have hpal : InMem s s.aux (pow2ceil s.auxLen.toNat) := inMem_of_check haux
  indexedCopy_stopsOnUnwritten (words := min npfEntries (pow2ceil s.auxLen.toNat / 2)) (inMem_mono hpal (by omega))
    (inMem_mono hin (Nat.le_of_not_lt hneed)) forall_half_iff_written.2

theorem checkMagic_stopsOnUnwritten {s : State} {v : Verdict} (hm : InMem s s.src 4)
    (hv : v.StopsOnUnwritten s) : (checkMagic s v).StopsOnUnwritten s := by
  unfold checkMagic
  split_ifs
  · exact stopsOnUnwritten_load hm Memory.readNat_isSome.2 fun _ _ => stopsOnUnwritten_guardElse hv
  · exact hv

/-- HDR reads inside the table whose length it has checked. -/
theorem tableRule_stopsOnUnwritten (f : Fmt) {s : State} (count : Nat) (hm : InMem s s.src s.srcLen.toNat) :
    (tableRule f s count).StopsOnUnwritten s :=
  stopsOnUnwritten_guard fun _ =>
  stopsOnUnwritten_guard fun htable =>
  have hwords : InMem s (s.src + 8) (4 * count) := by
    unfold InMem tableBytes at *
    omega
  stopsOnUnwritten_load hwords readWords_isSome_iff_written.2 fun _ _ =>
  stopsOnUnwritten_guard fun _ =>
  stopsOnUnwritten_guard fun _ => stopsOnUnwritten_done

theorem hdrRule_stopsOnUnwritten (f : Fmt) (s : State) : (hdrRule f s).StopsOnUnwritten s :=
  stopsOnUnwritten_guard fun hsrc =>
  stopsOnUnwritten_guard fun hlen =>
  have hin : InMem s s.src s.srcLen.toNat := inMem_of_check hsrc
  have hcount : InMem s (s.src + 4) 4 := by
    unfold InMem at *
    omega
  checkMagic_stopsOnUnwritten (inMem_mono hin (by omega)) <|
  stopsOnUnwritten_load hcount Memory.readNat_isSome.2 fun count _ => tableRule_stopsOnUnwritten f count hin

/-- A command stops only where a byte of `MEM` is unwritten. -/
theorem ruleOf_stopsOnUnwritten (i : Instr) (s : State) : (ruleOf i s).StopsOnUnwritten s := by
  cases i with
  | nop | unpk5551 | unpk555 | pack5551 | pack555 => exact stopsOnUnwritten_done
  | swid => exact stopsOnUnwritten_guard fun _ => stopsOnUnwritten_done
  | conv5551 | conv555 => exact convRule_stopsOnUnwritten _ s
  | pad e => exact stopsOnUnwritten_guardElse (padRule_stopsOnUnwritten _ s)
  | crop e => exact stopsOnUnwritten_guardElse (cropRule_stopsOnUnwritten _ s)
  | pal8 => exact pal8Rule_stopsOnUnwritten s
  | pal4 => exact pal4Rule_stopsOnUnwritten s
  | hdr f => exact stopsOnUnwritten_guardElse (hdrRule_stopsOnUnwritten _ s)

theorem exec_ne_refused (i : Instr) (s : State) (r : Refusal) : exec i s ≠ .refused r := by
  rw [exec_eq_finish]
  exact finish_ne_refused

theorem exec_fault {i : Instr} {s : State} {r : Fault} (h : exec i s = .fault r) :
    r = .unwrittenByte ∧ ∃ a < s.memSize, s.mem.read a = none := by
  rw [exec_eq_finish, finish_fault] at h
  exact ruleOf_stopsOnUnwritten i s r h

end Sys2Proof.Machine

namespace Sys2Proof

open Machine

/-- Settles O12: of the two ways to end of `exec_next`, a success has one STATUS word and a raise one for each of the
seven errors (`State.fail_statusWord`). -/
theorem statusAfterEveryCommand : Obligations.StatusAfterEveryCommand := by
  unfold Obligations.StatusAfterEveryCommand
  intro i s t h
  obtain ⟨e, rfl⟩ | ⟨u, -, rfl⟩ := exec_next h
  · refine ⟨?_, s.fail_phase e⟩
    rw [State.fail_statusWord]
    cases e <;> decide
  · exact ⟨by simp, u.succeed_phase⟩

/-- Settles O13: ERR = 1 leaves only the raise (`exec_failure`), and no error has code 0. -/
theorem raiseChangesOnlyStatus : Obligations.RaiseChangesOnlyStatus := by
  unfold Obligations.RaiseChangesOnlyStatus
  intro i s t h he
  obtain ⟨e, rfl⟩ := exec_failure h he
  exact ⟨rfl, e.code_ne_zero⟩

/-- Settles O16: a fault names an unwritten byte of `MEM` (`exec_fault`), so with all of `MEM` written a command has
only a next state to answer. -/
theorem commandsFaultOnlyOnUnwrittenBytes : Obligations.CommandsFaultOnlyOnUnwrittenBytes := by
  unfold Obligations.CommandsFaultOnlyOnUnwrittenBytes
  intro i s
  refine ⟨exec_ne_refused i s, fun r h => (exec_fault h).1, fun hwritten => ?_⟩
  cases h : exec i s with
  | next t => exact ⟨t, rfl⟩
  | refused r => exact absurd h (exec_ne_refused i s r)
  | fault r =>
    obtain ⟨-, a, ha, hnone⟩ := exec_fault h
    have hsome := hwritten a ha
    rw [hnone] at hsome
    cases hsome

/-- Settles O8: an idle block's turn only takes itself off the agenda (`step_idle`). -/
theorem idleBlockChangesNothing : Obligations.IdleBlockChangesNothing := by
  unfold Obligations.IdleBlockChangesNothing
  exact fun _ => step_idle

end Sys2Proof
end

section
/-! Reset and hazards (70_reset_and_hazards.md): the accesses of the host that are refused, and the reset input. -/

namespace Sys2Proof.Machine

/-! ### Refused accesses (R20, R234) -/

theorem State.busy_eq_true {s : State} (h : s.phase = .pending) : s.busy = true := by
  simp [State.busy_eq, h]

theorem registerAccessLegal_eq_false {off width : Nat} (h : width ≠ 4 ∨ off % 4 ≠ 0) :
    registerAccessLegal off width = false :=
  decide_eq_false (not_and_or.2 h)

/-- R20: a register read that is not an aligned 32-bit one is refused in every phase. -/
theorem hostReadReg_misformed {off width : Nat} (h : width ≠ 4 ∨ off % 4 ≠ 0) (s : State) :
    hostReadReg off width s = .refused .registerAccessForm := by
  rw [hostReadReg, registerAccessLegal_eq_false h]
  rfl

/-- R20: a register write that is not an aligned 32-bit one is refused in every phase. -/
theorem hostWriteReg_misformed {off width : Nat} (h : width ≠ 4 ∨ off % 4 ≠ 0) (v : Word) (s : State) :
    hostWriteReg off width v s = .refused .registerAccessForm := by
  rw [hostWriteReg, registerAccessLegal_eq_false h]
  rfl

/-- R234: while a command is pending an access of a wrong form is refused for its form and every other for BUSY, the
read of STATUS excepted. -/
theorem hostAccess_pending_refused {s : State} (hp : s.phase = .pending) {a : HostAccess} (ha : a ≠ statusRead) :
    ∃ r, hostAccess a s = .refused r := by
  have hb : s.busy = true := State.busy_eq_true hp
  cases a with
  | readReg off width =>
    by_cases hform : width ≠ 4 ∨ off % 4 ≠ 0
    · exact ⟨_, hostReadReg_misformed hform s⟩
    · obtain ⟨rfl, halign⟩ : width = 4 ∧ off % 4 = 0 := by omega
      have hoff : off ≠ statusOffset := fun h => ha (by rw [h, statusRead])
      exact ⟨.hostBusy, by simp [hostAccess, hostReadReg, registerAccessLegal, halign, hb, hoff]⟩
  | writeReg off width v =>
    cases hl : registerAccessLegal off width <;> simp [hostAccess, hostWriteReg, hl, hb]
  | readMem addr width => cases hl : memAccessLegal width <;> simp [hostAccess, hostReadMem, hl, hb]
  | writeMem addr width v => cases hl : memAccessLegal width <;> simp [hostAccess, hostWriteMem, hl, hb]

/-- R40: a refused step sets its mark. -/
theorem stepMarked_refusedMark {s : State} (h : ∃ r, step s = .refused r) : (stepMarked s).refusedMark = true := by
  obtain ⟨r, hr⟩ := h
  rw [stepMarked, hr]

/-! ### The reset input (R41, R230) -/

/-- The reset input's turn is the next step. -/
theorem step_reset (s : State) (rest : List Turn) :
    step { s with agenda := .reset :: rest } = .next (State.assertReset { s with agenda := rest }) := rfl

/-- Under the reset input every register reads as after reset. -/
@[simp] theorem State.assertReset_get (s : State) (r : Reg) : s.assertReset.get r = State.reset.get r := by
  cases r <;> rfl

end Sys2Proof.Machine

namespace Sys2Proof

open Machine

/-- Settles O47: `hostAccess_pending_refused` for the pending block, the two `misformed` lemmas for every phase. -/
theorem busyAndMisformedAccessesRefused : Obligations.BusyAndMisformedAccessesRefused := by
  unfold Obligations.BusyAndMisformedAccessesRefused
  intro s a rest
  refine ⟨fun hp ha => ?_, fun _ => step_statusRead s rest, fun off width v hform => ?_⟩
  · have hstep : ∃ r, step { s with agenda := .host a :: rest } = .refused r :=
      hostAccess_pending_refused (s := { s with agenda := rest }) hp ha
    exact ⟨hstep, stepMarked_refusedMark hstep⟩
  · have hread : ∃ r, step { s with agenda := .host (.readReg off width) :: rest } = .refused r :=
      ⟨_, hostReadReg_misformed hform _⟩
    have hwrite : ∃ r, step { s with agenda := .host (.writeReg off width v) :: rest } = .refused r :=
      ⟨_, hostWriteReg_misformed hform v _⟩
    exact ⟨hread, hwrite, stepMarked_refusedMark hread, stepMarked_refusedMark hwrite⟩

/-- Settles O49: the registers read as in the reset state (`State.assertReset_get`), whose values are O50's. -/
theorem resetInputTakesResetState : Obligations.ResetInputTakesResetState := by
  unfold Obligations.ResetInputTakesResetState
  intro s rest
  obtain ⟨hregs, hphase, hrefused, hfault, -⟩ := resetStateValues
  exact ⟨_, step_reset s rest, fun r => (State.assertReset_get _ r).trans (hregs r), hphase, hrefused, hfault,
    rfl, rfl, rfl, rfl⟩

end Sys2Proof
end
